-- ==== Sys2Proof/Word.lean ====
section
/-! DEFINITION. The word types of the CHIP-8 core and the plainest arithmetic over them: 8-bit general registers, timers and
memory bytes, 16-bit PC, I and stack entries, 12-bit addresses (rules R19, R22, R25, R27, R36, R72). Every value is
unsigned (rule R9). -/

namespace Sys2Proof

/-- A byte: a general register, a timer, a memory byte, an immediate kk (rules R19, R30, R36, R73). -/
abbrev Byte := BitVec 8

/-- A 16-bit value: an instruction word, PC, I, a stack entry (rules R22, R25, R27, R71). -/
abbrev Word := BitVec 16

/-- The 12-bit address field nnn (rule R72). -/
abbrev Addr12 := BitVec 12

/-- The big-endian word of two bytes, `high << 8 | low` (rules R53, R88). -/
def wordOfBytes (hi lo : Byte) : Word := hi ++ lo

/-- The high byte of a word, the one at the lower address (rule R53). -/
def Word.hiByte (w : Word) : Byte := w.extractLsb' 8 8

/-- The low byte of a word, the one at the higher address (rule R53). -/
def Word.loByte (w : Word) : Byte := w.extractLsb' 0 8

end Sys2Proof
end

