-- ==== Sys2Proof/Syntax.lean ====
section
/-! DEFINITION. The instruction set: one constructor of `Instr` for each of the 34 rows of spec/opcode_table.json (rules R2 and
R74). Register fields are numbers 0 to 15, kk is a byte, nnn a 12-bit address and n a count (rules R72 and R73). -/

namespace Sys2Proof

/-- A register number: the 4-bit field x or y, any of V0 to VF (rule R19). -/
abbrev Reg := Fin 16

/-- The flag register VF = V[15] (rule R20). -/
def Reg.vf : Reg := 15

/-- The 34 instructions, in the order of spec/opcode_table.json. -/
inductive Instr where
  /-- 00E0 `CLS` (rule R129). -/
  | cls
  /-- 00EE `RET` (rule R100). -/
  | ret
  /-- 1nnn `JP addr` (rule R101). -/
  | jp (nnn : Addr12)
  /-- 2nnn `CALL addr` (rule R102). -/
  | call (nnn : Addr12)
  /-- 3xkk `SE Vx, byte` (rule R103). -/
  | seByte (x : Reg) (kk : Byte)
  /-- 4xkk `SNE Vx, byte` (rule R104). -/
  | sneByte (x : Reg) (kk : Byte)
  /-- 5xy0 `SE Vx, Vy` (rule R105). -/
  | seReg (x y : Reg)
  /-- 6xkk `LD Vx, byte` (rule R109). -/
  | ldByte (x : Reg) (kk : Byte)
  /-- 7xkk `ADD Vx, byte` (rule R110). -/
  | addByte (x : Reg) (kk : Byte)
  /-- 8xy0 `LD Vx, Vy` (rule R111). -/
  | ldReg (x y : Reg)
  /-- 8xy1 `OR Vx, Vy` (rule R112). -/
  | orReg (x y : Reg)
  /-- 8xy2 `AND Vx, Vy` (rule R113). -/
  | andReg (x y : Reg)
  /-- 8xy3 `XOR Vx, Vy` (rule R114). -/
  | xorReg (x y : Reg)
  /-- 8xy4 `ADD Vx, Vy` (rule R115). -/
  | addReg (x y : Reg)
  /-- 8xy5 `SUB Vx, Vy` (rule R116). -/
  | subReg (x y : Reg)
  /-- 8xy6 `SHR Vx {, Vy}` (rule R117); y is decoded and ignored. -/
  | shr (x y : Reg)
  /-- 8xy7 `SUBN Vx, Vy` (rule R118). -/
  | subnReg (x y : Reg)
  /-- 8xyE `SHL Vx {, Vy}` (rule R119); y is decoded and ignored. -/
  | shl (x y : Reg)
  /-- 9xy0 `SNE Vx, Vy` (rule R106). -/
  | sneReg (x y : Reg)
  /-- Annn `LD I, addr` (rule R122). -/
  | ldI (nnn : Addr12)
  /-- Bnnn `JP V0, addr` (rule R107). -/
  | jpV0 (nnn : Addr12)
  /-- Cxkk `RND Vx, byte` (rule R120). -/
  | rnd (x : Reg) (kk : Byte)
  /-- Dxyn `DRW Vx, Vy, nibble` (rule R130); n is the number of sprite bytes, 0 to 15 in a well-formed instruction. -/
  | drw (x y : Reg) (n : Nat)
  /-- Ex9E `SKP Vx` (rule R135). -/
  | skp (x : Reg)
  /-- ExA1 `SKNP Vx` (rule R136). -/
  | sknp (x : Reg)
  /-- Fx07 `LD Vx, DT` (rule R137). -/
  | ldVxDT (x : Reg)
  /-- Fx0A `LD Vx, K` (rule R139). -/
  | ldVxK (x : Reg)
  /-- Fx15 `LD DT, Vx` (rule R140). -/
  | ldDTVx (x : Reg)
  /-- Fx18 `LD ST, Vx` (rule R141). -/
  | ldSTVx (x : Reg)
  /-- Fx1E `ADD I, Vx` (rule R123). -/
  | addIVx (x : Reg)
  /-- Fx29 `LD F, Vx` (rule R124). -/
  | ldFVx (x : Reg)
  /-- Fx33 `LD B, Vx` (rule R125). -/
  | ldBVx (x : Reg)
  /-- Fx55 `LD [I], Vx` (rule R126). -/
  | ldMemVx (x : Reg)
  /-- Fx65 `LD Vx, [I]` (rule R127). -/
  | ldVxMem (x : Reg)
deriving DecidableEq, Repr

end Sys2Proof
end

