-- ==== Sys2Proof/Decode.lean ====
section
/-! DEFINITION. Instruction decoding and encoding (spec/30_encoding.md): the fields of a word, `decodeWord` (rules R74 to R80),
the decoder of a byte sequence that rejects by name, the encoder, and the opcode table as data (rule R81). -/

namespace Sys2Proof

/-! ## The fields of a word (rule R72) -/

/-- w[15:12], the opcode family. -/
def Word.family (w : Word) : BitVec 4 := w.extractLsb' 12 4

/-- A 4-bit field as a register number (rule R73). -/
def regOfNibble (b : BitVec 4) : Reg := ⟨b.toNat, b.isLt⟩

/-- A register number as its 4-bit field. -/
def nibbleOfReg (r : Reg) : BitVec 4 := BitVec.ofNat 4 r.val

/-- x = w[11:8]. -/
def Word.x (w : Word) : Reg := regOfNibble (w.extractLsb' 8 4)

/-- y = w[7:4]. -/
def Word.y (w : Word) : Reg := regOfNibble (w.extractLsb' 4 4)

/-- n = w[3:0]. -/
def Word.n (w : Word) : BitVec 4 := w.extractLsb' 0 4

/-- kk = w[7:0]. -/
def Word.kk (w : Word) : Byte := w.extractLsb' 0 8

/-- nnn = w[11:0]. -/
def Word.nnn (w : Word) : Addr12 := w.extractLsb' 0 12

/-! ## Decoding -/

/-- Family 0x8 is selected by n (rule R78). -/
def decodeFamily8 (w : Word) : Option Instr :=
  match w.n with
  | 0x0#4 => some (.ldReg w.x w.y)
  | 0x1#4 => some (.orReg w.x w.y)
  | 0x2#4 => some (.andReg w.x w.y)
  | 0x3#4 => some (.xorReg w.x w.y)
  | 0x4#4 => some (.addReg w.x w.y)
  | 0x5#4 => some (.subReg w.x w.y)
  | 0x6#4 => some (.shr w.x w.y)
  | 0x7#4 => some (.subnReg w.x w.y)
  | 0xE#4 => some (.shl w.x w.y)
  | _ => none

/-- Family 0xE is selected by kk (rule R79). -/
def decodeFamilyE (w : Word) : Option Instr :=
  match w.kk with
  | 0x9E#8 => some (.skp w.x)
  | 0xA1#8 => some (.sknp w.x)
  | _ => none

/-- Family 0xF is selected by kk (rule R80). -/
def decodeFamilyF (w : Word) : Option Instr :=
  match w.kk with
  | 0x07#8 => some (.ldVxDT w.x)
  | 0x0A#8 => some (.ldVxK w.x)
  | 0x15#8 => some (.ldDTVx w.x)
  | 0x18#8 => some (.ldSTVx w.x)
  | 0x1E#8 => some (.addIVx w.x)
  | 0x29#8 => some (.ldFVx w.x)
  | 0x33#8 => some (.ldBVx w.x)
  | 0x55#8 => some (.ldMemVx w.x)
  | 0x65#8 => some (.ldVxMem w.x)
  | _ => none

/-- Family 0x0 is selected by the whole word (rule R75); `low` is w[11:0]. -/
def decodeFamily0 (low : Addr12) : Option Instr :=
  match low with
  | 0x0E0#12 => some .cls
  | 0x0EE#12 => some .ret
  | _ => none

/-- `decode(w)` of rule R81: the instruction of the word, or none for an unknown word (rule R82). The family nibble selects as
in rule R74; families 5 and 9 fix n = 0 (rule R77). -/
def decodeWord (w : Word) : Option Instr :=
  match w.family with
  | 0x0#4 => decodeFamily0 w.nnn
  | 0x1#4 => some (.jp w.nnn)
  | 0x2#4 => some (.call w.nnn)
  | 0x3#4 => some (.seByte w.x w.kk)
  | 0x4#4 => some (.sneByte w.x w.kk)
  | 0x5#4 => if w.n = 0 then some (.seReg w.x w.y) else none
  | 0x6#4 => some (.ldByte w.x w.kk)
  | 0x7#4 => some (.addByte w.x w.kk)
  | 0x8#4 => decodeFamily8 w
  | 0x9#4 => if w.n = 0 then some (.sneReg w.x w.y) else none
  | 0xA#4 => some (.ldI w.nnn)
  | 0xB#4 => some (.jpV0 w.nnn)
  | 0xC#4 => some (.rnd w.x w.kk)
  | 0xD#4 => some (.drw w.x w.y w.n.toNat)
  | 0xE#4 => decodeFamilyE w
  | _ => decodeFamilyF w -- 0xF, the one family left

/-- Why the byte decoder gives no instruction. -/
inductive Reject where
  /-- Fewer than the two bytes of an instruction are left (rule R71). -/
  | truncated
  /-- The word matches no row of the opcode table (rule R82). -/
  | unknownWord (w : Word)
deriving DecidableEq, Repr

/-- Decoding from bytes: two bytes, the high byte first (rules R53 and R71), and the bytes after them. -/
def decode : List Byte → Except Reject (Instr × List Byte)
  | hi :: lo :: rest =>
    match decodeWord (wordOfBytes hi lo) with
    | some i => .ok (i, rest)
    | none => .error (.unknownWord (wordOfBytes hi lo))
  | _ => .error .truncated

/-- The word that `nbits` table bits `w` stand for: bit 0 is the least significant bit of the word, and the bits above `nbits`
are 0. An instruction of this core is one 16-bit word (rule R71). -/
def tableWord (nbits w : Nat) : Word := BitVec.ofNat 16 (w % 2 ^ nbits)

/-- The instruction the byte decoder reads from a table row's bits, laid out high byte first. -/
def decodeTableWord (nbits w : Nat) : Option Instr :=
  match decode [(tableWord nbits w).hiByte, (tableWord nbits w).loByte] with
  | .ok (i, _) => some i
  | .error _ => none

/-! ## Encoding -/

/-- family, x, kk (the format `xkk` of rule R71). -/
def encodeXKK (family : BitVec 4) (x : Reg) (kk : Byte) : Word := family ++ nibbleOfReg x ++ kk

/-- family, x, y, n (the formats `xy` and `xyn` of rule R71). -/
def encodeXYN (family : BitVec 4) (x y : Reg) (n : BitVec 4) : Word := family ++ nibbleOfReg x ++ nibbleOfReg y ++ n

/-- family, nnn (the format `nnn` of rule R71). -/
def encodeNNN (family : BitVec 4) (nnn : Addr12) : Word := family ++ nnn

/-- The word of an instruction, from its pattern in the opcode table. -/
def encode : Instr → Word
  | .cls => 0x00E0#16
  | .ret => 0x00EE#16
  | .jp nnn => encodeNNN 0x1#4 nnn
  | .call nnn => encodeNNN 0x2#4 nnn
  | .seByte x kk => encodeXKK 0x3#4 x kk
  | .sneByte x kk => encodeXKK 0x4#4 x kk
  | .seReg x y => encodeXYN 0x5#4 x y 0x0#4
  | .ldByte x kk => encodeXKK 0x6#4 x kk
  | .addByte x kk => encodeXKK 0x7#4 x kk
  | .ldReg x y => encodeXYN 0x8#4 x y 0x0#4
  | .orReg x y => encodeXYN 0x8#4 x y 0x1#4
  | .andReg x y => encodeXYN 0x8#4 x y 0x2#4
  | .xorReg x y => encodeXYN 0x8#4 x y 0x3#4
  | .addReg x y => encodeXYN 0x8#4 x y 0x4#4
  | .subReg x y => encodeXYN 0x8#4 x y 0x5#4
  | .shr x y => encodeXYN 0x8#4 x y 0x6#4
  | .subnReg x y => encodeXYN 0x8#4 x y 0x7#4
  | .shl x y => encodeXYN 0x8#4 x y 0xE#4
  | .sneReg x y => encodeXYN 0x9#4 x y 0x0#4
  | .ldI nnn => encodeNNN 0xA#4 nnn
  | .jpV0 nnn => encodeNNN 0xB#4 nnn
  | .rnd x kk => encodeXKK 0xC#4 x kk
  | .drw x y n => encodeXYN 0xD#4 x y (BitVec.ofNat 4 n)
  | .skp x => encodeXKK 0xE#4 x 0x9E#8
  | .sknp x => encodeXKK 0xE#4 x 0xA1#8
  | .ldVxDT x => encodeXKK 0xF#4 x 0x07#8
  | .ldVxK x => encodeXKK 0xF#4 x 0x0A#8
  | .ldDTVx x => encodeXKK 0xF#4 x 0x15#8
  | .ldSTVx x => encodeXKK 0xF#4 x 0x18#8
  | .addIVx x => encodeXKK 0xF#4 x 0x1E#8
  | .ldFVx x => encodeXKK 0xF#4 x 0x29#8
  | .ldBVx x => encodeXKK 0xF#4 x 0x33#8
  | .ldMemVx x => encodeXKK 0xF#4 x 0x55#8
  | .ldVxMem x => encodeXKK 0xF#4 x 0x65#8

/-- The two bytes of an instruction as memory holds them, the high byte first (rule R53). -/
def encodeBytes (i : Instr) : List Byte := [(encode i).hiByte, (encode i).loByte]

/-! ## The opcode table as data (rule R81) -/

/-- One row of spec/opcode_table.json: a word w is the row's instruction when `w &&& mask = pattern`. -/
structure OpcodeRow where
  mnemonic : String
  pattern : Word
  mask : Word
deriving DecidableEq, Repr

/-- The word matches the row (rule R81). -/
def OpcodeRow.matchesWord (r : OpcodeRow) (w : Word) : Bool := w &&& r.mask == r.pattern

/-- The row of an instruction. -/
def Instr.row : Instr → OpcodeRow
  | .cls => ⟨"CLS", 0x00E0, 0xFFFF⟩
  | .ret => ⟨"RET", 0x00EE, 0xFFFF⟩
  | .jp _ => ⟨"JP_addr", 0x1000, 0xF000⟩
  | .call _ => ⟨"CALL_addr", 0x2000, 0xF000⟩
  | .seByte _ _ => ⟨"SE_Vx__byte", 0x3000, 0xF000⟩
  | .sneByte _ _ => ⟨"SNE_Vx__byte", 0x4000, 0xF000⟩
  | .seReg _ _ => ⟨"SE_Vx__Vy", 0x5000, 0xF00F⟩
  | .ldByte _ _ => ⟨"LD_Vx__byte", 0x6000, 0xF000⟩
  | .addByte _ _ => ⟨"ADD_Vx__byte", 0x7000, 0xF000⟩
  | .ldReg _ _ => ⟨"LD_Vx__Vy", 0x8000, 0xF00F⟩
  | .orReg _ _ => ⟨"OR_Vx__Vy", 0x8001, 0xF00F⟩
  | .andReg _ _ => ⟨"AND_Vx__Vy", 0x8002, 0xF00F⟩
  | .xorReg _ _ => ⟨"XOR_Vx__Vy", 0x8003, 0xF00F⟩
  | .addReg _ _ => ⟨"ADD_Vx__Vy", 0x8004, 0xF00F⟩
  | .subReg _ _ => ⟨"SUB_Vx__Vy", 0x8005, 0xF00F⟩
  | .shr _ _ => ⟨"SHR_Vx____Vy", 0x8006, 0xF00F⟩
  | .subnReg _ _ => ⟨"SUBN_Vx__Vy", 0x8007, 0xF00F⟩
  | .shl _ _ => ⟨"SHL_Vx____Vy", 0x800E, 0xF00F⟩
  | .sneReg _ _ => ⟨"SNE_Vx__Vy", 0x9000, 0xF00F⟩
  | .ldI _ => ⟨"LD_I__addr", 0xA000, 0xF000⟩
  | .jpV0 _ => ⟨"JP_V0__addr", 0xB000, 0xF000⟩
  | .rnd _ _ => ⟨"RND_Vx__byte", 0xC000, 0xF000⟩
  | .drw _ _ _ => ⟨"DRW_Vx__Vy__nibble", 0xD000, 0xF000⟩
  | .skp _ => ⟨"SKP_Vx", 0xE09E, 0xF0FF⟩
  | .sknp _ => ⟨"SKNP_Vx", 0xE0A1, 0xF0FF⟩
  | .ldVxDT _ => ⟨"LD_Vx__DT", 0xF007, 0xF0FF⟩
  | .ldVxK _ => ⟨"LD_Vx__K", 0xF00A, 0xF0FF⟩
  | .ldDTVx _ => ⟨"LD_DT__Vx", 0xF015, 0xF0FF⟩
  | .ldSTVx _ => ⟨"LD_ST__Vx", 0xF018, 0xF0FF⟩
  | .addIVx _ => ⟨"ADD_I__Vx", 0xF01E, 0xF0FF⟩
  | .ldFVx _ => ⟨"LD_F__Vx", 0xF029, 0xF0FF⟩
  | .ldBVx _ => ⟨"LD_B__Vx", 0xF033, 0xF0FF⟩
  | .ldMemVx _ => ⟨"LD__I___Vx", 0xF055, 0xF0FF⟩
  | .ldVxMem _ => ⟨"LD_Vx___I", 0xF065, 0xF0FF⟩

/-- Rows of families 0x0 to 0x7. -/
def opcodeRowsLow : List OpcodeRow := [
  ⟨"CLS", 0x00E0, 0xFFFF⟩,
  ⟨"RET", 0x00EE, 0xFFFF⟩,
  ⟨"JP_addr", 0x1000, 0xF000⟩,
  ⟨"CALL_addr", 0x2000, 0xF000⟩,
  ⟨"SE_Vx__byte", 0x3000, 0xF000⟩,
  ⟨"SNE_Vx__byte", 0x4000, 0xF000⟩,
  ⟨"SE_Vx__Vy", 0x5000, 0xF00F⟩,
  ⟨"LD_Vx__byte", 0x6000, 0xF000⟩,
  ⟨"ADD_Vx__byte", 0x7000, 0xF000⟩]

/-- Rows of family 0x8. -/
def opcodeRowsAlu : List OpcodeRow := [
  ⟨"LD_Vx__Vy", 0x8000, 0xF00F⟩,
  ⟨"OR_Vx__Vy", 0x8001, 0xF00F⟩,
  ⟨"AND_Vx__Vy", 0x8002, 0xF00F⟩,
  ⟨"XOR_Vx__Vy", 0x8003, 0xF00F⟩,
  ⟨"ADD_Vx__Vy", 0x8004, 0xF00F⟩,
  ⟨"SUB_Vx__Vy", 0x8005, 0xF00F⟩,
  ⟨"SHR_Vx____Vy", 0x8006, 0xF00F⟩,
  ⟨"SUBN_Vx__Vy", 0x8007, 0xF00F⟩,
  ⟨"SHL_Vx____Vy", 0x800E, 0xF00F⟩]

/-- Rows of families 0x9 to 0xD. -/
def opcodeRowsMid : List OpcodeRow := [
  ⟨"SNE_Vx__Vy", 0x9000, 0xF00F⟩,
  ⟨"LD_I__addr", 0xA000, 0xF000⟩,
  ⟨"JP_V0__addr", 0xB000, 0xF000⟩,
  ⟨"RND_Vx__byte", 0xC000, 0xF000⟩,
  ⟨"DRW_Vx__Vy__nibble", 0xD000, 0xF000⟩]

/-- Rows of families 0xE and 0xF. -/
def opcodeRowsHigh : List OpcodeRow := [
  ⟨"SKP_Vx", 0xE09E, 0xF0FF⟩,
  ⟨"SKNP_Vx", 0xE0A1, 0xF0FF⟩,
  ⟨"LD_Vx__DT", 0xF007, 0xF0FF⟩,
  ⟨"LD_Vx__K", 0xF00A, 0xF0FF⟩,
  ⟨"LD_DT__Vx", 0xF015, 0xF0FF⟩,
  ⟨"LD_ST__Vx", 0xF018, 0xF0FF⟩,
  ⟨"ADD_I__Vx", 0xF01E, 0xF0FF⟩,
  ⟨"LD_F__Vx", 0xF029, 0xF0FF⟩,
  ⟨"LD_B__Vx", 0xF033, 0xF0FF⟩,
  ⟨"LD__I___Vx", 0xF055, 0xF0FF⟩,
  ⟨"LD_Vx___I", 0xF065, 0xF0FF⟩]

/-- The 34 rows of spec/opcode_table.json, in its order (rule R81). -/
def opcodeTable : List OpcodeRow := opcodeRowsLow ++ opcodeRowsAlu ++ opcodeRowsMid ++ opcodeRowsHigh

end Sys2Proof
end

