-- ==== Sys2Proof/Config.lean ====
section
/-! DEFINITION. The fixed parameters of rule R6, the three parameters the source leaves open (rules R7 and R48: FONT,
LOW_WRITE_POLICY, KEY_RANGE_POLICY) with their defaults, and the two free inputs of a cycle (rules R38 and R39). -/

namespace Sys2Proof

/-- `MEM_SIZE` (rule R6): addresses 0x000 to 0xFFF. -/
def memSize : Nat := 4096

/-- `PROG_BASE` (rule R6): where a program is loaded and where PC starts. -/
def progBase : Nat := 0x200

/-- `PROG_MAX` (rule R6): the longest program `LOAD` accepts, in bytes. -/
def progMax : Nat := 3584

/-- `STACK_DEPTH` (rule R6). -/
def stackDepth : Nat := 16

/-- `DISP_W` (rule R6): columns of the display. -/
def displayWidth : Nat := 64

/-- `DISP_H` (rule R6): rows of the display. -/
def displayHeight : Nat := 32

/-- `TIMER_RESET` (rule R6): the value of DT and ST after reset. -/
def timerReset : Byte := 60

/-- What Fx33 and Fx55 do below 0x200 (rules R7 and R58, decision D7). -/
inductive LowWritePolicy where
  /-- A program write below 0x200 raises `LOW_WRITE`. -/
  | fault
  /-- A program write below 0x200 stores its byte like any other write. -/
  | allow
deriving DecidableEq, Repr

/-- What Ex9E and ExA1 do with a key number above 0xF (rules R7 and R134, decision D8). -/
inductive KeyRangePolicy where
  /-- The instruction raises `KEY_RANGE`. -/
  | fault
  /-- The key is the low nibble of the register. -/
  | lowNibble
  /-- No such key is ever down. -/
  | notDown
deriving DecidableEq, Repr

/-- The model's configuration of rule R48. It is fixed for a machine: no step changes it. It stands in `State` as the field
`cfg`, so that every statement over all states holds for every value of the three parameters (assumption 3). -/
structure Config where
  /-- `FONT`: 80 bytes, glyph d at bytes 5d to 5d+4 (rules R7 and R46). -/
  font : Vector Byte 80
  /-- `LOW_WRITE_POLICY` (rule R58). -/
  lowWrite : LowWritePolicy
  /-- `KEY_RANGE_POLICY` (rule R134). -/
  keyRange : KeyRangePolicy
deriving DecidableEq, Repr

/-- The default `FONT` of rule R46, one line for two glyphs. PRESUMED, unsafe: the spec marks these bytes as general
knowledge, and a claim about glyph shapes names the font it assumes (assumption 4). -/
def Config.defaultFont : Vector Byte 80 := #v[
  0xF0, 0x90, 0x90, 0x90, 0xF0, 0x20, 0x60, 0x20, 0x20, 0x70,
  0xF0, 0x10, 0xF0, 0x80, 0xF0, 0xF0, 0x10, 0xF0, 0x10, 0xF0,
  0x90, 0x90, 0xF0, 0x10, 0x10, 0xF0, 0x80, 0xF0, 0x10, 0xF0,
  0xF0, 0x80, 0xF0, 0x90, 0xF0, 0xF0, 0x10, 0x20, 0x40, 0x40,
  0xF0, 0x90, 0xF0, 0x90, 0xF0, 0xF0, 0x90, 0xF0, 0x10, 0xF0,
  0xF0, 0x90, 0xF0, 0x90, 0x90, 0xE0, 0x90, 0xE0, 0x90, 0xE0,
  0xF0, 0x80, 0x80, 0x80, 0xF0, 0xE0, 0x90, 0x90, 0x90, 0xE0,
  0xF0, 0x80, 0xF0, 0x80, 0xF0, 0xF0, 0x80, 0xF0, 0x80, 0x80]

/-- The defaults of rule R7: the standard font, and a fault under both policies. -/
def Config.default : Config := ⟨Config.defaultFont, .fault, .fault⟩

/-- The inputs of one `CYCLE(K, RND)` (rules R38, R39, R44). -/
structure CycleInput where
  /-- K: bit k is 1 when key k is down. -/
  keys : BitVec 16
  /-- RND: the random byte that only Cxkk reads. -/
  rnd : Byte
deriving DecidableEq, Repr

/-- FREE VALUE: the key sample K of the n-th cycle (rule R38: a draw, under no law). It has no body, so a claim holds
whatever the host's keys are (assumption 1). -/
opaque Config.keyDraw : Nat → BitVec 16

/-- FREE VALUE: the random byte RND of the n-th cycle (rule R39: the model places no law on it; assumption 1). -/
opaque Config.rndDraw : Nat → Byte

end Sys2Proof
end

