-- ==== Sys2Proof/Machine/State.lean ====
section
/-! DEFINITION. The whole state of the core (rule R48), the three fields the model adds to it (the configuration and the inputs
of the cycles to come), the reasons an outcome can stop, and the state after reset (rule R45). -/

namespace Sys2Proof.Machine

/-- Memory M as (address, byte) pairs in ONE canonical form: addresses strictly rising, no entry equal to what an unlisted
address reads as (assumption 6). What an unlisted address reads as is its reset content, `Config.resetByte`. -/
abbrev Memory := List Host.Cell

/-- The display buffer FB: 32 rows of 64 one-bit pixels, row-major (rule R34). -/
abbrev Screen := Vector (Vector Bool 64) 32

/-- The state of the core.
* `v` V0 to VF, 8 bits each (rules R19, R20), reset 0x00.
* `i` the index register I, 16 bits (rules R25, R26), reset 0x0000.
* `pc` PC, 16 bits (rules R22 to R24), reset 0x0200.
* `stack` the return stack S[0] to S[15], 16 bits each (rule R27), reset 0x0000.
* `sp` SP, the number of occupied entries, 0 to 16 (rules R28, R29), reset 0.
* `dt`, `st` the delay and the sound timer, 8 bits (rules R30, R31), reset 60.
* `fb` the display buffer FB (rule R34), reset all off.
* `mem` the 4096 bytes of memory M (rule R36), reset to the font and zeros.
* `faultCode` (4 bits), `faultPc`, `faultInfo` (16 bits) the fault record (rule R35), reset 0.

The last three are the MODEL'S OWN fields, not state of the core (rules R37 and R48).
* `cfg` the configuration of rule R48, which no step changes (assumption 3).
* `inputs` the inputs the host has already chosen for the cycles to come, the next one first, empty at reset (assumption 1).
* `draws` the number of inputs taken so far, which numbers the free draws, 0 at reset (assumption 1). -/
structure State where
  v : Vector Byte 16
  i : Word
  pc : Word
  stack : Vector Word 16
  sp : Fin 17
  dt : Byte
  st : Byte
  fb : Screen
  mem : Memory
  faultCode : BitVec 4
  faultPc : Word
  faultInfo : Word
  cfg : Config
  inputs : List CycleInput
  draws : Nat
deriving DecidableEq, Repr

/-- Reasons for `Host.Outcome.fault`. There is none, so no step of this model stops with a fault: the spec gives every fault
condition of the core an effect (rules R95 and R147: the fault record is set, which halts the core), and the model takes that
effect as a NEXT state (assumption 5). -/
inductive Fault where
deriving DecidableEq, Repr

/-- Reasons for `Host.Outcome.refused`. -/
inductive Refusal where
  /-- Raised only by an arm of `exec` whose instruction has no meaning yet, by its mnemonic. Safe: nothing is claimed of such an
  instruction. No arm of this model raises it. -/
  | notModelled (mnemonic : String)
deriving DecidableEq, Repr

/-- The state after `RESET` (rules R45 to R47 and R161) under a configuration. Memory lists nothing: every address reads as its
reset content. -/
def State.resetWith (c : Config) : State where
  v := Vector.replicate 16 0
  i := 0
  pc := BitVec.ofNat 16 progBase
  stack := Vector.replicate 16 0
  sp := 0
  dt := timerReset
  st := timerReset
  fb := Vector.replicate 32 (Vector.replicate 64 false)
  mem := []
  faultCode := 0
  faultPc := 0
  faultInfo := 0
  cfg := c
  inputs := []
  draws := 0

/-- The state after `RESET` under the default configuration of rule R7. -/
def State.reset : State := State.resetWith Config.default

end Sys2Proof.Machine
end

