-- ==== Sys2Proof/Machine/Ops.lean ====
section
/-! DEFINITION. The named operations over memory, registers, the stack, the display, the timers and the inputs, the ONE operation
that raises a fault (rule R95) and the frame in which every instruction body runs (rules R90, R91, R95 and R96). -/

namespace Sys2Proof

/-- What an address reads as when nothing was written to it: the font at 0x000 to 0x04F, 0x00 elsewhere (rules R45 to R47). -/
def Config.resetByte (c : Config) (a : Nat) : Byte := if h : a < 80 then c.font[a] else 0

end Sys2Proof

namespace Sys2Proof.Machine

/-! ## Memory as a canonical list -/

/-- The byte at address a; `d` gives what an unlisted address reads as. -/
def Memory.read (d : Nat → Byte) : Memory → Nat → Byte
  | [], a => d a
  | c :: m, a => if a = c.1 then c.2 else Memory.read d m a

/-- Memory with no entry for address a. -/
def Memory.without (m : Memory) (a : Nat) : Memory := m.filter (fun c => c.1 != a)

/-- Puts an entry before the first one with a higher address. -/
def Memory.place : Memory → Nat → Byte → Memory
  | [], a, v => [(a, v)]
  | c :: m, a, v => if a < c.1 then (a, v) :: c :: m else c :: Memory.place m a v

/-- Writes one byte and keeps the canonical form: writing what an unlisted address reads as removes the entry. -/
def Memory.write (d : Nat → Byte) (m : Memory) (a : Nat) (v : Byte) : Memory :=
  if v = d a then Memory.without m a else Memory.place (Memory.without m a) a v

/-- Writes the bytes at ascending addresses from a. -/
def Memory.writeAll (d : Nat → Byte) : Memory → Nat → List Byte → Memory
  | m, _, [] => m
  | m, a, b :: bs => Memory.writeAll d (Memory.write d m a b) (a + 1) bs

/-- The canonical form: addresses strictly rising and below 4096 (rule R36), no entry equal to what an unlisted address reads
as. -/
abbrev Memory.wf (d : Nat → Byte) (m : Memory) : Prop :=
  m.Pairwise (fun c e => c.1 < e.1) ∧ ∀ c ∈ m, c.1 < memSize ∧ c.2 ≠ d c.1

/-! ## Registers, memory bytes, pixels and stack entries -/

/-- `V[r]` (rules R10 and R19): every register is readable, none is hardwired. -/
def State.reg (s : State) (r : Reg) : Byte := s.v[r]

/-- `V[r] <- b` (rules R10 and R19). -/
def State.setReg (s : State) (r : Reg) (b : Byte) : State := { s with v := s.v.set r b }

/-- `I <- w` (rule R25). -/
def State.setI (s : State) (w : Word) : State := { s with i := w }

/-- `PC <- target` (rule R10). -/
def State.setPc (s : State) (target : Word) : State := { s with pc := target }

/-- `DT <- b` (rule R30). -/
def State.setDt (s : State) (b : Byte) : State := { s with dt := b }

/-- `ST <- b` (rule R31). -/
def State.setSt (s : State) (b : Byte) : State := { s with st := b }

/-- Replaces the display buffer. -/
def State.setFb (s : State) (fb : Screen) : State := { s with fb := fb }

/-- Replaces memory. -/
def State.setMem (s : State) (m : Memory) : State := { s with mem := m }

/-- What an unlisted address of this machine reads as. -/
def State.unlisted (s : State) : Nat → Byte := s.cfg.resetByte

/-- `M[a]` (rule R36), for a below 4096; no instruction reaches an address above. -/
def State.byteAt (s : State) (a : Nat) : Byte := Memory.read s.unlisted s.mem a

/-- `FB[r][c]` (rule R34). -/
def State.pixel (s : State) (r : Fin 32) (c : Fin 64) : Bool := s.fb[r][c]

/-- `S[j]` (rule R27). -/
def State.entry (s : State) (j : Fin 16) : Word := s.stack[j]

/-! ## Faults (rules R35, R95 and R143) -/

/-- The fault conditions of rule R143. -/
inductive FaultKind where
  | fetchRange | readRange | writeRange | stackOverflow | stackUnderflow | lowWrite | keyRange
deriving DecidableEq, Repr

/-- FAULT_CODE of each fault (rule R143); 0 is `NONE`. -/
def FaultKind.code : FaultKind → BitVec 4
  | .fetchRange => 1
  | .readRange => 2
  | .writeRange => 3
  | .stackOverflow => 4
  | .stackUnderflow => 5
  | .lowWrite => 6
  | .keyRange => 7

/-- `raise F(info)` of rule R12: the fault and its FAULT_INFO. -/
structure Raised where
  kind : FaultKind
  info : Word
deriving DecidableEq, Repr

/-- TAKING A FAULT, the one operation for it (rules R95, R144 and R147). `s` is the state BEFORE the cycle, so PC is the address
of the faulting instruction and nothing of the cycle is committed; only the fault record changes, which halts the core. There is
no handler, no vector and no return from a fault (rules R147 and R148): the one way out is `RESET`. -/
def State.raise (s : State) (r : Raised) : State :=
  { s with faultCode := r.kind.code, faultPc := s.pc, faultInfo := r.info }

/-- `halted = (FAULT_CODE != 0)` (rule R43). -/
def State.halted (s : State) : Bool := s.faultCode != 0

/-! ## Memory accesses with their checks -/

/-- `MemRead(a, 1)` (rule R57). -/
def State.memRead (s : State) (a : Nat) : Except Raised Byte :=
  if a ≥ memSize then .error ⟨.readRange, BitVec.ofNat 16 a⟩ else .ok (s.byteAt a)

/-- `MemWrite(a, 1, v)` (rule R58): the range check, then the `LOW_WRITE` check, then the write. -/
def State.memWrite (s : State) (a : Nat) (b : Byte) : Except Raised State :=
  if a ≥ memSize then .error ⟨.writeRange, BitVec.ofNat 16 a⟩
  else if a < progBase ∧ s.cfg.lowWrite = .fault then .error ⟨.lowWrite, BitVec.ofNat 16 a⟩
  else .ok (s.setMem (Memory.write s.unlisted s.mem a b))

/-- n byte reads at ascending addresses from a (rule R56). -/
def State.readBytes (s : State) : Nat → Nat → Except Raised (List Byte)
  | _, 0 => .ok []
  | a, n + 1 =>
    match s.memRead a with
    | .error r => .error r
    | .ok b =>
      match s.readBytes (a + 1) n with
      | .error r => .error r
      | .ok bs => .ok (b :: bs)

/-- Byte writes at ascending addresses from a (rule R56). -/
def State.writeBytes : State → Nat → List Byte → Except Raised State
  | s, _, [] => .ok s
  | s, a, b :: bs =>
    match s.memWrite a b with
    | .error r => .error r
    | .ok t => t.writeBytes (a + 1) bs

/-- Writes the bytes to registers in ascending order from register number k (rule R127). -/
def State.setRegs : State → Nat → List Byte → State
  | s, _, [] => s
  | s, k, b :: bs => (s.setReg (Fin.ofNat 16 k) b).setRegs (k + 1) bs

/-! ## The return stack (rules R27 to R29) -/

/-- Pushes a return address: `S[SP] <- w; SP <- SP + 1`, or the fault of a full stack (rule R102). -/
def State.push (s : State) (w : Word) (full : Raised) : Except Raised State :=
  if h : s.sp.val < 16 then
    .ok { s with stack := s.stack.set s.sp.val w, sp := ⟨s.sp.val + 1, Nat.succ_lt_succ h⟩ }
  else .error full

/-- Pops a return address into PC: `SP <- SP - 1; PC <- S[SP]`, or the fault of an empty stack; the popped entry keeps its value
(rules R29 and R100). -/
def State.pop (s : State) (empty : Raised) : Except Raised State :=
  match s.sp with
  | ⟨0, _⟩ => .error empty
  | ⟨n + 1, h⟩ => .ok { s with sp := ⟨n, Nat.lt_of_succ_lt h⟩, pc := s.stack[n]'(Nat.lt_of_succ_lt_succ h) }

/-! ## The display buffer (rules R34 and R130 to R132) -/

/-- Every pixel off (rule R129). -/
def Screen.blank : Screen := Vector.replicate 32 (Vector.replicate 64 false)

/-- `FB[r][c] <- FB[r][c] ^ 1`, with the collision of a pixel that was on; a position outside the buffer is dropped (rules R130 to
R132). The pair is the buffer and `collide`. -/
def Screen.plot (r c : Nat) (p : Screen × Bool) : Screen × Bool :=
  if h : r < 32 ∧ c < 64 then
    (p.1.set r ((p.1[r]'h.1).set c (!(p.1[r]'h.1)[c]'h.2) h.2) h.1, p.2 || (p.1[r]'h.1)[c]'h.2)
  else p

/-- One sprite row: bit 7 - b of the byte at column cx + b, for b = 0 to 7 in order (rule R130). -/
def Screen.drawRow (r cx : Nat) (byte : Byte) (p : Screen × Bool) : Screen × Bool :=
  (List.range 8).foldl (fun p b => if byte.getLsbD (7 - b) then Screen.plot r (cx + b) p else p) p

/-- The sprite rows from row r down, the first byte topmost (rule R130). -/
def Screen.drawRows (cx : Nat) : Nat → List Byte → Screen × Bool → Screen × Bool
  | _, [], p => p
  | r, byte :: bytes, p => Screen.drawRows cx (r + 1) bytes (Screen.drawRow r cx byte p)

/-- XORs a sprite with its top-left pixel at column cx, row cy, and says whether a pixel that was on went off. -/
def Screen.draw (fb : Screen) (cx cy : Nat) (bytes : List Byte) : Screen × Bool := Screen.drawRows cx cy bytes (fb, false)

/-! ## Timers, inputs and the cycle's frame -/

/-- One tick of a timer: down by one, stopping at 0 (rule R91). -/
def tick (t : Byte) : Byte := if t = 0 then 0 else t - 1

/-- The advance and the tick, which come before the body (rules R90 and R91). -/
def State.prologue (s : State) : State := { s with pc := s.pc + 2, dt := tick s.dt, st := tick s.st }

/-- K and RND of the current cycle (rules R38, R39 and R94): the input the host has chosen, or a free draw. -/
def State.input (s : State) : CycleInput := s.inputs.headD ⟨Config.keyDraw s.draws, Config.rndDraw s.draws⟩

/-- The end of a `CYCLE`: its input is used up, and the next cycle has one of its own (rule R38: never cached between cycles). -/
def State.takeInput (s : State) : State := { s with inputs := s.inputs.tail, draws := s.draws + 1 }

/-- COMMIT OR FAULT (rules R95 and R96), the frame of every instruction. `s` is the state at the start of the cycle; the body runs
after the advance and the tick, and either all it did is committed or the fault it raised is taken on `s`. -/
def runBody (body : State → Except Raised State) (s : State) : Host.Outcome State Fault Refusal :=
  match body s.prologue with
  | .ok t => .next t
  | .error r => .next (s.raise r)

/-! ## Fetch (rule R88) -/

/-- The fetch check and the big-endian word at PC (rules R53 and R88). -/
def State.fetch (s : State) : Except Raised Word :=
  if s.pc.toNat ≥ 0xFFF then .error ⟨.fetchRange, if s.pc.toNat ≥ 0x1000 then s.pc else 0x1000⟩
  else .ok (wordOfBytes (s.byteAt s.pc.toNat) (s.byteAt (s.pc.toNat + 1)))

/-- Stores a word where the next fetch reads it, the high byte first, past the `LOW_WRITE` check (it stands for a load from
outside). Where PC cannot be fetched from, nothing changes (assumption 8). -/
def State.placeWord (s : State) (w : Word) : State :=
  if s.pc.toNat ≥ 0xFFF then s
  else s.setMem (Memory.writeAll s.unlisted s.mem s.pc.toNat [w.hiByte, w.loByte])

end Sys2Proof.Machine
end

