-- ==== Sys2Proof/Machine/Operands.lean ====
section
/-! DEFINITION. Every operand form of the core (rules R73 and R128): an immediate byte, a 12-bit address, the index-plus-offset
address I + k, a block of registers, the key number of Ex9E and ExA1, the lowest key down, the glyph address and the decimal
digits. Register operands Vx and Vy are `State.reg`. -/

namespace Sys2Proof.Machine

/-- The address nnn, zero-extended to 16 bits (rule R73). -/
def addrOperand (nnn : Addr12) : Word := nnn.setWidth 16

/-- A register or immediate byte zero-extended to 16 bits (rules R107, R123 and R143). -/
def zext16 (b : Byte) : Word := b.setWidth 16

/-- The memory operand I + k, a mathematical integer that does not wrap (rules R50 and R128). -/
def State.indexed (s : State) (k : Nat) : Nat := s.i.toNat + k

/-- V0 to Vx in ascending order (rule R126). -/
def State.regBlock (s : State) (x : Reg) : List Byte := s.v.toList.take (x.val + 1)

/-- The hundreds, tens and ones of a byte (rule R125). -/
def bcdDigits (b : Byte) : List Byte :=
  [BitVec.ofNat 8 (b.toNat / 100), BitVec.ofNat 8 (b.toNat / 10 % 10), BitVec.ofNat 8 (b.toNat % 10)]

/-- The address of the glyph of Vx, Vx * 5 with no mask (rule R124). -/
def glyphAddress (b : Byte) : Word := BitVec.ofNat 16 (b.toNat * 5)

/-- `KeyDown(v)` (rule R134), on the key sample of this cycle. -/
def State.keyDown (s : State) (v : Byte) : Except Raised Bool :=
  if v.toNat ≤ 0xF then .ok (s.input.keys.getLsbD v.toNat)
  else
    match s.cfg.keyRange with
    | .fault => .error ⟨.keyRange, zext16 v⟩
    | .lowNibble => .ok (s.input.keys.getLsbD (v.toNat % 16))
    | .notDown => .ok false

/-- `LowestDown(K)` (rule R138): the least key that is down, if any. -/
def lowestDown (keys : BitVec 16) : Option (Fin 16) := (List.finRange 16).find? (fun k => keys.getLsbD k.val)

/-- A skip: a further `PC <- trunc_16(PC + 2)` when the condition holds (rules R15 and R84). -/
def State.skipIf (s : State) (c : Bool) : State := s.setPc (if c then s.pc + 2 else s.pc)

end Sys2Proof.Machine
end

