-- ==== Sys2Proof/Machine/Flags.lean ====
section
/-! DEFINITION. Every flag computation of the core. VF is the only flag (rules R20 and R32); a body that writes Vx and VF writes
Vx first and VF last (rule R93). -/

namespace Sys2Proof.Machine

/-- A flag value: 1 or 0 (rule R20). -/
def flagByte (c : Bool) : Byte := if c then 1 else 0

/-- The carry of an addition: the sum exceeds 255 (rule R115). -/
def carryFlag (a b : Byte) : Byte := flagByte (decide (a.toNat + b.toNat > 255))

/-- The strict comparison of a subtraction a - b: equal operands give 0 (rules R116 and R118). -/
def greaterFlag (a b : Byte) : Byte := flagByte (decide (a.toNat > b.toNat))

/-- The bit shifted out to the right, bit 0 of the entry value (rule R117). -/
def lowBitFlag (a : Byte) : Byte := flagByte (a.getLsbD 0)

/-- The bit shifted out to the left, bit 7 of the entry value (rule R119). -/
def highBitFlag (a : Byte) : Byte := flagByte (a.getLsbD 7)

/-- `V[x] <- result`, then `V[F] <- flag` (rule R93): for x = F the flag is what stays. -/
def State.setWithFlag (s : State) (x : Reg) (result flag : Byte) : State := (s.setReg x result).setReg Reg.vf flag

end Sys2Proof.Machine
end

