-- ==== Sys2Proof/Machine/Alu.lean ====
section
/-! DEFINITION. Register loads and ALU (spec/42_alu.md): 6xkk, 7xkk, 8xy0 to 8xyE and Cxkk. None can fault. -/

namespace Sys2Proof.Machine

/-- 6xkk `LD Vx, byte` (rule R109). -/
def execLdByte (x : Reg) (kk : Byte) (s : State) : Host.Outcome State Fault Refusal :=
  runBody (fun s => .ok (s.setReg x kk)) s

/-- 7xkk `ADD Vx, byte` (rule R110): no flag. -/
def execAddByte (x : Reg) (kk : Byte) (s : State) : Host.Outcome State Fault Refusal :=
  runBody (fun s => .ok (s.setReg x (s.reg x + kk))) s

/-- 8xy0 `LD Vx, Vy` (rule R111). -/
def execLdReg (x y : Reg) (s : State) : Host.Outcome State Fault Refusal :=
  runBody (fun s => .ok (s.setReg x (s.reg y))) s

/-- 8xy1 `OR Vx, Vy` (rule R112): VF is not reset. -/
def execOrReg (x y : Reg) (s : State) : Host.Outcome State Fault Refusal :=
  runBody (fun s => .ok (s.setReg x (s.reg x ||| s.reg y))) s

/-- 8xy2 `AND Vx, Vy` (rule R113): VF is not reset. -/
def execAndReg (x y : Reg) (s : State) : Host.Outcome State Fault Refusal :=
  runBody (fun s => .ok (s.setReg x (s.reg x &&& s.reg y))) s

/-- 8xy3 `XOR Vx, Vy` (rule R114): VF is not reset. -/
def execXorReg (x y : Reg) (s : State) : Host.Outcome State Fault Refusal :=
  runBody (fun s => .ok (s.setReg x (s.reg x ^^^ s.reg y))) s

/-- 8xy4 `ADD Vx, Vy` (rule R115). -/
def execAddReg (x y : Reg) (s : State) : Host.Outcome State Fault Refusal :=
  runBody (fun s => .ok (s.setWithFlag x (s.reg x + s.reg y) (carryFlag (s.reg x) (s.reg y)))) s

/-- 8xy5 `SUB Vx, Vy` (rule R116). -/
def execSubReg (x y : Reg) (s : State) : Host.Outcome State Fault Refusal :=
  runBody (fun s => .ok (s.setWithFlag x (s.reg x - s.reg y) (greaterFlag (s.reg x) (s.reg y)))) s

/-- 8xy6 `SHR Vx` (rule R117): Vy is not read. -/
def execShr (x _y : Reg) (s : State) : Host.Outcome State Fault Refusal :=
  runBody (fun s => .ok (s.setWithFlag x (s.reg x >>> 1) (lowBitFlag (s.reg x)))) s

/-- 8xy7 `SUBN Vx, Vy` (rule R118). -/
def execSubnReg (x y : Reg) (s : State) : Host.Outcome State Fault Refusal :=
  runBody (fun s => .ok (s.setWithFlag x (s.reg y - s.reg x) (greaterFlag (s.reg y) (s.reg x)))) s

/-- 8xyE `SHL Vx` (rule R119): Vy is not read. -/
def execShl (x _y : Reg) (s : State) : Host.Outcome State Fault Refusal :=
  runBody (fun s => .ok (s.setWithFlag x (s.reg x <<< 1) (highBitFlag (s.reg x)))) s

/-- Cxkk `RND Vx, byte` (rule R120): the random byte is this cycle's input. -/
def execRnd (x : Reg) (kk : Byte) (s : State) : Host.Outcome State Fault Refusal :=
  runBody (fun s => .ok (s.setReg x (s.input.rnd &&& kk))) s

end Sys2Proof.Machine
end

