-- ==== Sys2Proof/Machine/Control.lean ====
section
/-! DEFINITION. Control transfer (spec/41_control.md): 00EE, 1nnn, 2nnn, 3xkk, 4xkk, 5xy0, 9xy0 and Bnnn. -/

namespace Sys2Proof.Machine

/-- 00EE `RET` (rule R100). -/
def execRet (s : State) : Host.Outcome State Fault Refusal :=
  runBody (fun s => s.pop ⟨.stackUnderflow, 0⟩) s

/-- 1nnn `JP addr` (rule R101). -/
def execJp (nnn : Addr12) (s : State) : Host.Outcome State Fault Refusal :=
  runBody (fun s => .ok (s.setPc (addrOperand nnn))) s

/-- 2nnn `CALL addr` (rule R102): pushes the advanced PC. -/
def execCall (nnn : Addr12) (s : State) : Host.Outcome State Fault Refusal :=
  runBody (fun s =>
    match s.push s.pc ⟨.stackOverflow, addrOperand nnn⟩ with
    | .error r => .error r
    | .ok t => .ok (t.setPc (addrOperand nnn))) s

/-- 3xkk `SE Vx, byte` (rule R103). -/
def execSeByte (x : Reg) (kk : Byte) (s : State) : Host.Outcome State Fault Refusal :=
  runBody (fun s => .ok (s.skipIf (s.reg x == kk))) s

/-- 4xkk `SNE Vx, byte` (rule R104). -/
def execSneByte (x : Reg) (kk : Byte) (s : State) : Host.Outcome State Fault Refusal :=
  runBody (fun s => .ok (s.skipIf (s.reg x != kk))) s

/-- 5xy0 `SE Vx, Vy` (rule R105). -/
def execSeReg (x y : Reg) (s : State) : Host.Outcome State Fault Refusal :=
  runBody (fun s => .ok (s.skipIf (s.reg x == s.reg y))) s

/-- 9xy0 `SNE Vx, Vy` (rule R106). -/
def execSneReg (x y : Reg) (s : State) : Host.Outcome State Fault Refusal :=
  runBody (fun s => .ok (s.skipIf (s.reg x != s.reg y))) s

/-- Bnnn `JP V0, addr` (rule R107): the 16-bit sum, not reduced to 12 bits. -/
def execJpV0 (nnn : Addr12) (s : State) : Host.Outcome State Fault Refusal :=
  runBody (fun s => .ok (s.setPc (addrOperand nnn + zext16 (s.reg 0)))) s

end Sys2Proof.Machine
end

