-- ==== Sys2Proof/Machine/Display.lean ====
section
/-! DEFINITION. The display framebuffer controller (spec/44_display.md): 00E0 and Dxyn. -/

namespace Sys2Proof.Machine

/-- 00E0 `CLS` (rule R129). -/
def execCls (s : State) : Host.Outcome State Fault Refusal :=
  runBody (fun s => .ok (s.setFb Screen.blank)) s

/-- Dxyn `DRW Vx, Vy, nibble` (rules R130 to R132): every sprite byte is read before any pixel changes, the coordinates are the
entry values of Vx and Vy, not reduced, and VF is written last. -/
def execDrw (x y : Reg) (n : Nat) (s : State) : Host.Outcome State Fault Refusal :=
  runBody (fun s =>
    match s.readBytes (s.indexed 0) n with
    | .error r => .error r
    | .ok bytes =>
      let drawn := s.fb.draw (s.reg x).toNat (s.reg y).toNat bytes
      .ok ((s.setFb drawn.1).setReg Reg.vf (flagByte drawn.2))) s

end Sys2Proof.Machine
end

