-- ==== Sys2Proof/Machine/Index.lean ====
section
/-! DEFINITION. The index register and memory transfers (spec/43_index_memory.md): Annn, Fx1E, Fx29, Fx33, Fx55 and Fx65. -/

namespace Sys2Proof.Machine

/-- Annn `LD I, addr` (rule R122). -/
def execLdI (nnn : Addr12) (s : State) : Host.Outcome State Fault Refusal :=
  runBody (fun s => .ok (s.setI (addrOperand nnn))) s

/-- Fx1E `ADD I, Vx` (rule R123): a 16-bit sum, VF is not written. -/
def execAddIVx (x : Reg) (s : State) : Host.Outcome State Fault Refusal :=
  runBody (fun s => .ok (s.setI (s.i + zext16 (s.reg x)))) s

/-- Fx29 `LD F, Vx` (rule R124). -/
def execLdFVx (x : Reg) (s : State) : Host.Outcome State Fault Refusal :=
  runBody (fun s => .ok (s.setI (glyphAddress (s.reg x)))) s

/-- Fx33 `LD B, Vx` (rule R125): I is not changed. -/
def execLdBVx (x : Reg) (s : State) : Host.Outcome State Fault Refusal :=
  runBody (fun s => s.writeBytes (s.indexed 0) (bcdDigits (s.reg x))) s

/-- Fx55 `LD [I], Vx` (rule R126): stores V0 to Vx, then `I <- trunc_16(I + x + 1)`. -/
def execLdMemVx (x : Reg) (s : State) : Host.Outcome State Fault Refusal :=
  runBody (fun s =>
    match s.writeBytes (s.indexed 0) (s.regBlock x) with
    | .error r => .error r
    | .ok t => .ok (t.setI (BitVec.ofNat 16 (s.indexed (x.val + 1))))) s

/-- Fx65 `LD Vx, [I]` (rule R127): loads V0 to Vx, then `I <- trunc_16(I + x + 1)`. -/
def execLdVxMem (x : Reg) (s : State) : Host.Outcome State Fault Refusal :=
  runBody (fun s =>
    match s.readBytes (s.indexed 0) (x.val + 1) with
    | .error r => .error r
    | .ok bs => .ok ((s.setRegs 0 bs).setI (BitVec.ofNat 16 (s.indexed (x.val + 1))))) s

end Sys2Proof.Machine
end

