-- ==== Sys2Proof/Machine/KeysTimers.lean ====
section
/-! DEFINITION. Keypad and timer instructions (spec/45_keys_timers.md): Ex9E, ExA1, Fx07, Fx0A, Fx15 and Fx18. -/

namespace Sys2Proof.Machine

/-- Ex9E `SKP Vx` (rules R134 and R135). -/
def execSkp (x : Reg) (s : State) : Host.Outcome State Fault Refusal :=
  runBody (fun s =>
    match s.keyDown (s.reg x) with
    | .error r => .error r
    | .ok down => .ok (s.skipIf down)) s

/-- ExA1 `SKNP Vx` (rules R134 and R136). -/
def execSknp (x : Reg) (s : State) : Host.Outcome State Fault Refusal :=
  runBody (fun s =>
    match s.keyDown (s.reg x) with
    | .error r => .error r
    | .ok down => .ok (s.skipIf (!down))) s

/-- Fx07 `LD Vx, DT` (rule R137): DT as ticked in this cycle. -/
def execLdVxDT (x : Reg) (s : State) : Host.Outcome State Fault Refusal :=
  runBody (fun s => .ok (s.setReg x s.dt)) s

/-- Fx0A `LD Vx, K` (rule R139): with no key down PC goes back to this Fx0A, else Vx is the lowest key down. -/
def execLdVxK (x : Reg) (s : State) : Host.Outcome State Fault Refusal :=
  runBody (fun s => .ok (
    match lowestDown s.input.keys with
    | none => s.setPc (s.pc - 2)
    | some k => s.setReg x (BitVec.ofNat 8 k.val))) s

/-- Fx15 `LD DT, Vx` (rule R140): written after this cycle's tick. -/
def execLdDTVx (x : Reg) (s : State) : Host.Outcome State Fault Refusal :=
  runBody (fun s => .ok (s.setDt (s.reg x))) s

/-- Fx18 `LD ST, Vx` (rule R141): written after this cycle's tick. -/
def execLdSTVx (x : Reg) (s : State) : Host.Outcome State Fault Refusal :=
  runBody (fun s => .ok (s.setSt (s.reg x))) s

end Sys2Proof.Machine
end

