-- ==== Sys2Proof/Machine/Cycle.lean ====
section
/-! DEFINITION. The cycle in full (rules R86 to R97), with its two outputs: the outcome and the diagnostic event. -/

namespace Sys2Proof.Machine

/-- The diagnostic event `Unknown(pc, w)` (rules R41 and R150): an output of a cycle, not state. -/
structure UnknownEvent where
  pc : Word
  word : Word
deriving DecidableEq, Repr

/-- What one `CYCLE` gives the host (rule R44): the outcome, whose state holds the fault record, and the event if there is one. -/
structure CycleResult where
  outcome : Host.Outcome State Fault Refusal
  event : Option UnknownEvent

/-- Uses up the cycle's input in the state an outcome leaves. -/
def endCycle : Host.Outcome State Fault Refusal → Host.Outcome State Fault Refusal
  | .next t => .next t.takeInput
  | .fault r => .fault r
  | .refused r => .refused r

/-- One `CYCLE` (rule R96). A halted core does nothing (rule R87); a PC that cannot be fetched from raises FETCH_RANGE (rule R88); an
unknown word advances, ticks and is reported (rules R92 and R150); an instruction runs. The cycle's input is used up in every
case (assumption 1). -/
def cycle (s : State) : CycleResult :=
  if s.halted then ⟨.next s.takeInput, none⟩
  else
    match s.fetch with
    | .error r => ⟨.next (s.raise r).takeInput, none⟩
    | .ok w =>
      match decodeWord w with
      | none => ⟨.next s.prologue.takeInput, some ⟨s.pc, w⟩⟩
      | some i => ⟨endCycle (exec i s), none⟩

end Sys2Proof.Machine
end

