-- ==== Sys2Proof/Machine/Step.lean ====
section
/-! DEFINITION. One step of the machine, which is one `CYCLE` (rule R97), and the word a step will fetch. -/

namespace Sys2Proof.Machine

/-- One step: one `CYCLE` with the inputs that stand next in the state. -/
def step (s : State) : Host.Outcome State Fault Refusal := (cycle s).outcome

/-- `s` with an instruction's table bits stored where the next step fetches, high byte first (assumption 8). -/
def State.withFetchWord (s : State) (nbits w : Nat) : State := s.placeWord (tableWord nbits w)

end Sys2Proof.Machine
end

