-- ==== Sys2Proof/Machine/HostOps.lean ====
section
/-! DEFINITION. The four operations of the core's interface (rule R44), each atomic and issued between cycles: `RESET`, `CYCLE(K, RND)`,
`LOAD(b)` and `READ`, and a run as a list of them (rule R172). -/

namespace Sys2Proof.Machine

/-- What `READ` gives the host (rules R40, R42 and R43). -/
structure ReadOut where
  fb : Screen
  soundActive : Bool
  faultCode : BitVec 4
  faultPc : Word
  faultInfo : Word
deriving DecidableEq, Repr

/-- The outputs of an operation (rule R44). -/
inductive Reply where
  /-- `RESET` has no output. -/
  | none
  /-- `CYCLE`: the event, if the word was unknown. The fault record is in the state. -/
  | cycled (event : Option UnknownEvent)
  /-- `LOAD_OK`. -/
  | loadOk
  /-- `LOAD_REJECTED`. -/
  | loadRejected
  /-- `READ`. -/
  | out (r : ReadOut)
deriving DecidableEq, Repr

/-- An operation the host issues (rule R44). -/
inductive HostOp where
  | reset
  | cycle (k : BitVec 16) (rnd : Byte)
  | load (bytes : List Byte)
  | read
deriving DecidableEq, Repr

/-- `sound_active = (ST != 0)` (rules R42 and R157). -/
def State.soundActive (s : State) : Bool := s.st != 0

/-- `READ` (rules R40, R42 to R44): it changes nothing. -/
def State.readOut (s : State) : ReadOut := ⟨s.fb, s.soundActive, s.faultCode, s.faultPc, s.faultInfo⟩

/-- `RESET` (rules R161 to R163): every piece of the core's state gets its reset value, whatever it was. The configuration stays, and
so do the model's own input fields, which are the host's, not the core's (assumption 1). -/
def State.hostReset (s : State) : State := { State.resetWith s.cfg with inputs := s.inputs, draws := s.draws }

/-- `LOAD(b)` (rules R165 and R166): the bytes verbatim from 0x200, all or nothing. -/
def State.load (s : State) (bytes : List Byte) : Reply × State :=
  if bytes.length > progMax then (.loadRejected, s)
  else (.loadOk, s.setMem (Memory.writeAll s.unlisted s.mem progBase bytes))

/-- The state a step leaves; a step of this model always answers a next state, and the other two cases keep the state. -/
def stateAfter (s : State) : Host.Outcome State Fault Refusal → State
  | .next t => t
  | .fault _ => s
  | .refused _ => s

/-- One operation of the host: its output and the state after it. `CYCLE(K, RND)` is a cycle whose input is K and RND. -/
def State.perform (s : State) : HostOp → Reply × State
  | .reset => (.none, s.hostReset)
  | .cycle k rnd =>
    let r := Sys2Proof.Machine.cycle { s with inputs := ⟨k, rnd⟩ :: s.inputs }
    (.cycled r.event, stateAfter s r.outcome)
  | .load bytes => s.load bytes
  | .read => (.out s.readOut, s)

/-- A run: the state after a sequence of operations (rule R172). -/
def State.performAll : State → List HostOp → State
  | s, [] => s
  | s, op :: ops => (s.perform op).2.performAll ops

end Sys2Proof.Machine
end

