-- ==== Sys2Proof/Safety.lean ====
section
/-! DEFINITION. The terms the claims use: a halted and a safe run, the invariant of the reachable states, and the frame of an
instruction as a list of the pieces of state it writes. -/

namespace Sys2Proof.Machine

/-- The core still runs after k steps: no fault was recorded (rules R147 and R172: a run that ends halted has failed). -/
def State.safeFor (k : Nat) (s : State) : Prop := ∃ t, Host.Core.run Sys2Proof.core k s = .next t ∧ t.halted = false

/-- What every step keeps, and reset meets.
* Memory is in its canonical form and lists only addresses below 4096 (rule R36).
* PC is at most 0x10FE (rules R23 and R99), and a return address at most 0x1000 (rule R102: a call at 0xFFE pushes 0x1000).
* FAULT_CODE is a code of rule R143 (8 to 15 never), and the record is clear while the core runs. -/
structure State.Inv (s : State) : Prop where
  memory : Memory.wf s.unlisted s.mem
  pc : s.pc.toNat ≤ 0x10FE
  stack : ∀ j : Fin 16, (s.entry j).toNat ≤ 0x1000
  code : s.faultCode.toNat ≤ 7
  clear : s.faultCode = 0 → s.faultPc = 0 ∧ s.faultInfo = 0

/-- A piece of the state, for frames. -/
inductive Piece where
  | reg (r : Reg)
  | index
  | pc
  | stackPointer
  | entry (j : Fin 16)
  | delay
  | sound
  | display
  | byte (a : Nat)
  | faultRecord
  | config
  | inputs
deriving DecidableEq, Repr

/-- The piece is as the cycle itself leaves it, whatever the instruction: PC is advanced by 2 (rule R90), each timer is down by one
and not below 0 (rule R91), everything else is unchanged. -/
def Piece.kept : Piece → State → State → Prop
  | .reg r, s, t => t.reg r = s.reg r
  | .index, s, t => t.i = s.i
  | .pc, s, t => t.pc = s.pc + 2
  | .stackPointer, s, t => t.sp = s.sp
  | .entry j, s, t => t.entry j = s.entry j
  | .delay, s, t => t.dt.toNat = s.dt.toNat - 1
  | .sound, s, t => t.st.toNat = s.st.toNat - 1
  | .display, s, t => ∀ r c, t.pixel r c = s.pixel r c
  | .byte a, s, t => t.byteAt a = s.byteAt a
  | .faultRecord, s, t => t.faultCode = s.faultCode ∧ t.faultPc = s.faultPc ∧ t.faultInfo = s.faultInfo
  | .config, s, t => t.cfg = s.cfg
  | .inputs, s, t => t.inputs = s.inputs ∧ t.draws = s.draws

/-- THE FRAME of a cycle from s to t: it writes the listed pieces and no other, beyond the advance and the tick. -/
def OnlyWrites (written : List Piece) (s t : State) : Prop := ∀ p : Piece, p ∉ written → p.kept s t

/-- V0 to Vx as pieces (rule R127). -/
def regsUpTo (x : Reg) : List Piece := ((List.finRange 16).filter (fun r => r.val ≤ x.val)).map Piece.reg

/-- The n bytes from address a as pieces (rule R56). -/
def bytesFrom (a n : Nat) : List Piece := (List.range n).map (fun k => Piece.byte (a + k))

/-- A sprite pixel of Dxyn (rules R130 and R131): some bit 7 - b of sprite byte j is 1 and lands on row r, column c. -/
def SpriteCovers (s : State) (x y : Reg) (n : Nat) (r : Fin 32) (c : Fin 64) : Prop :=
  ∃ j b : Nat, j < n ∧ b < 8 ∧ r.val = (s.reg y).toNat + j ∧ c.val = (s.reg x).toNat + b ∧
    (s.byteAt (s.i.toNat + j)).getLsbD (7 - b) = true

/-- The general registers an instruction may write (rules R20 and R21). -/
def writtenRegs : Instr → List Reg
  | .cls => []
  | .ret => []
  | .jp _ => []
  | .call _ => []
  | .seByte _ _ => []
  | .sneByte _ _ => []
  | .seReg _ _ => []
  | .ldByte x _ => [x]
  | .addByte x _ => [x]
  | .ldReg x _ => [x]
  | .orReg x _ => [x]
  | .andReg x _ => [x]
  | .xorReg x _ => [x]
  | .addReg x _ => [x, Reg.vf]
  | .subReg x _ => [x, Reg.vf]
  | .shr x _ => [x, Reg.vf]
  | .subnReg x _ => [x, Reg.vf]
  | .shl x _ => [x, Reg.vf]
  | .sneReg _ _ => []
  | .ldI _ => []
  | .jpV0 _ => []
  | .rnd x _ => [x]
  | .drw _ _ _ => [Reg.vf]
  | .skp _ => []
  | .sknp _ => []
  | .ldVxDT x => [x]
  | .ldVxK x => [x]
  | .ldDTVx _ => []
  | .ldSTVx _ => []
  | .addIVx _ => []
  | .ldFVx _ => []
  | .ldBVx _ => []
  | .ldMemVx _ => []
  | .ldVxMem x => (List.finRange 16).filter (fun r => r.val ≤ x.val)

/-- The fault an instruction's body may raise (rules R143 and R145); no other instruction raises one. -/
def mayRaise : Instr → FaultKind → Prop
  | .ret, k => k = .stackUnderflow
  | .call _, k => k = .stackOverflow
  | .drw _ _ _, k => k = .readRange
  | .ldVxMem _, k => k = .readRange
  | .ldBVx _, k => k = .writeRange ∨ k = .lowWrite
  | .ldMemVx _, k => k = .writeRange ∨ k = .lowWrite
  | .skp _, k => k = .keyRange
  | .sknp _, k => k = .keyRange
  | .cls, _ => False
  | .jp _, _ => False
  | .seByte _ _, _ => False
  | .sneByte _ _, _ => False
  | .seReg _ _, _ => False
  | .ldByte _ _, _ => False
  | .addByte _ _, _ => False
  | .ldReg _ _, _ => False
  | .orReg _ _, _ => False
  | .andReg _ _, _ => False
  | .xorReg _ _, _ => False
  | .addReg _ _, _ => False
  | .subReg _ _, _ => False
  | .shr _ _, _ => False
  | .subnReg _ _, _ => False
  | .shl _ _, _ => False
  | .sneReg _ _, _ => False
  | .ldI _, _ => False
  | .jpV0 _, _ => False
  | .rnd _ _, _ => False
  | .ldVxDT _, _ => False
  | .ldVxK _, _ => False
  | .ldDTVx _, _ => False
  | .ldSTVx _, _ => False
  | .addIVx _, _ => False
  | .ldFVx _, _ => False

end Sys2Proof.Machine
end

