-- ==== Sys2Proof/Certificates/Slice0/Obligations.lean ====
section
/-! DEFINITION. The statements for the provers. Each formalises numbered rules of spec/ or is derived from its sections; the
docstring names them. A next state t of an instruction is described by what its rule writes and by `OnlyWrites`, the frame: every
other piece of state is as the advance and the tick leave it. Two of the pieces, the configuration and the inputs, are the model's own
(assumptions 3 and 1). A fault is `State.raise` on the state before the cycle, whose effect
`FaultIsPrecise` states. -/

open Sys2Proof Sys2Proof.Machine

/-! ## Encoding (spec/30_encoding.md) -/

/-- Decoding the encoding of a well-formed instruction gives it back, every operand included. -/
def Obligations.DecodeInvertsEncode : Prop :=
  ∀ i : Instr, i.wellFormed = true → decodeWord (encode i) = some i ∧ ∀ rest, decode (encodeBytes i ++ rest) = .ok (i, rest)

/-- A word that decodes is the encoding of its instruction, which is well-formed: each word has one meaning. -/
def Obligations.EncodeInvertsDecode : Prop :=
  ∀ (w : Word) (i : Instr), decodeWord w = some i → encode i = w ∧ i.wellFormed = true

/-- Rules R75 to R80: what each family of words decodes to, the words written as numbers. -/
def Obligations.OpcodeMapByFamily : Prop :=
  (∀ nnn : Nat, nnn < 0x1000 →
    decodeWord (BitVec.ofNat 16 nnn) = (if nnn = 0x0E0 then some .cls else if nnn = 0x0EE then some .ret else none) ∧
    decodeWord (BitVec.ofNat 16 (0x1000 + nnn)) = some (.jp (BitVec.ofNat 12 nnn)) ∧
    decodeWord (BitVec.ofNat 16 (0x2000 + nnn)) = some (.call (BitVec.ofNat 12 nnn)) ∧
    decodeWord (BitVec.ofNat 16 (0xA000 + nnn)) = some (.ldI (BitVec.ofNat 12 nnn)) ∧
    decodeWord (BitVec.ofNat 16 (0xB000 + nnn)) = some (.jpV0 (BitVec.ofNat 12 nnn))) ∧
  (∀ (x : Reg) (kk : Nat), kk < 0x100 →
    decodeWord (BitVec.ofNat 16 (0x3000 + 0x100 * x.val + kk)) = some (.seByte x (BitVec.ofNat 8 kk)) ∧
    decodeWord (BitVec.ofNat 16 (0x4000 + 0x100 * x.val + kk)) = some (.sneByte x (BitVec.ofNat 8 kk)) ∧
    decodeWord (BitVec.ofNat 16 (0x6000 + 0x100 * x.val + kk)) = some (.ldByte x (BitVec.ofNat 8 kk)) ∧
    decodeWord (BitVec.ofNat 16 (0x7000 + 0x100 * x.val + kk)) = some (.addByte x (BitVec.ofNat 8 kk)) ∧
    decodeWord (BitVec.ofNat 16 (0xC000 + 0x100 * x.val + kk)) = some (.rnd x (BitVec.ofNat 8 kk)) ∧
    decodeWord (BitVec.ofNat 16 (0xE000 + 0x100 * x.val + kk)) =
      (if kk = 0x9E then some (.skp x) else if kk = 0xA1 then some (.sknp x) else none) ∧
    decodeWord (BitVec.ofNat 16 (0xF000 + 0x100 * x.val + kk)) =
      (if kk = 0x07 then some (.ldVxDT x) else if kk = 0x0A then some (.ldVxK x)
       else if kk = 0x15 then some (.ldDTVx x) else if kk = 0x18 then some (.ldSTVx x)
       else if kk = 0x1E then some (.addIVx x) else if kk = 0x29 then some (.ldFVx x)
       else if kk = 0x33 then some (.ldBVx x) else if kk = 0x55 then some (.ldMemVx x)
       else if kk = 0x65 then some (.ldVxMem x) else none)) ∧
  (∀ (x y : Reg) (n : Nat), n < 0x10 →
    decodeWord (BitVec.ofNat 16 (0x5000 + 0x100 * x.val + 0x10 * y.val + n)) = (if n = 0 then some (.seReg x y) else none) ∧
    decodeWord (BitVec.ofNat 16 (0x9000 + 0x100 * x.val + 0x10 * y.val + n)) = (if n = 0 then some (.sneReg x y) else none) ∧
    decodeWord (BitVec.ofNat 16 (0xD000 + 0x100 * x.val + 0x10 * y.val + n)) = some (.drw x y n) ∧
    decodeWord (BitVec.ofNat 16 (0x8000 + 0x100 * x.val + 0x10 * y.val + n)) =
      (if n = 0x0 then some (.ldReg x y) else if n = 0x1 then some (.orReg x y)
       else if n = 0x2 then some (.andReg x y) else if n = 0x3 then some (.xorReg x y)
       else if n = 0x4 then some (.addReg x y) else if n = 0x5 then some (.subReg x y)
       else if n = 0x6 then some (.shr x y) else if n = 0x7 then some (.subnReg x y)
       else if n = 0xE then some (.shl x y) else none))

/-- Section 4 of spec/30_encoding.md (R82), the event's content by decision D14: the unknown words, exactly, and what a cycle does
with one: it fetches, advances, ticks and reports, nothing else (the piece `inputs` is the model's own, assumption 1). -/
def Obligations.UnknownWordsExactly : Prop :=
  (∀ w : Word, decodeWord w = none ↔
    (w.toNat / 0x1000 = 0x0 ∧ w.toNat ≠ 0x00E0 ∧ w.toNat ≠ 0x00EE) ∨
    (w.toNat / 0x1000 = 0x5 ∧ w.toNat % 0x10 ≠ 0) ∨
    (w.toNat / 0x1000 = 0x8 ∧ w.toNat % 0x10 ∈ [0x8, 0x9, 0xA, 0xB, 0xC, 0xD, 0xF]) ∨
    (w.toNat / 0x1000 = 0x9 ∧ w.toNat % 0x10 ≠ 0) ∨
    (w.toNat / 0x1000 = 0xE ∧ w.toNat % 0x100 ∉ [0x9E, 0xA1]) ∨
    (w.toNat / 0x1000 = 0xF ∧ w.toNat % 0x100 ∉ [0x07, 0x0A, 0x15, 0x18, 0x1E, 0x29, 0x33, 0x55, 0x65])) ∧
  (∀ (s : State) (w : Word), s.halted = false → s.fetch = .ok w → decodeWord w = none →
    (∃ t, step s = .next t ∧ OnlyWrites [.inputs] s t) ∧ (cycle s).event = some ⟨s.pc, w⟩)

/-- Section 3 of spec/30_encoding.md (the spec's own derivation, R81): an instruction word matches its row of the opcode table and
no other row, and an unknown word matches none. -/
def Obligations.OneTableRowPerWord : Prop :=
  opcodeTable.length = 34 ∧
  ∀ w : Word, opcodeTable.filter (fun r => r.matchesWord w) =
    match decodeWord w with
    | some i => [i.row]
    | none => []

/-- A few words written out from the spec's patterns, one or more per family, and two unknown ones. -/
def Obligations.SpecWordsDecode : Prop :=
  decodeWord 0x00E0 = some .cls ∧ decodeWord 0x00EE = some .ret ∧ decodeWord 0x1ABC = some (.jp 0xABC) ∧
  decodeWord 0x4342 = some (.sneByte 3 0x42) ∧ decodeWord 0x8125 = some (.subReg 1 2) ∧ decodeWord 0xA123 = some (.ldI 0x123) ∧
  decodeWord 0xDAB2 = some (.drw 10 11 2) ∧ decodeWord 0xE19E = some (.skp 1) ∧ decodeWord 0xF30A = some (.ldVxK 3) ∧
  decodeWord 0xF265 = some (.ldVxMem 2) ∧ decodeWord 0x5121 = none ∧ decodeWord 0x01E0 = none

/-! ## The cycle (spec/40_cycle.md) -/

/-- Rule R53: the byte at PC is the high byte of the instruction word and the byte at PC + 1 the low byte. -/
def Obligations.FetchIsBigEndian : Prop :=
  ∀ s : State, s.pc.toNat + 1 < 4096 →
    ∃ w : Word, s.fetch = .ok w ∧ w.toNat = (s.byteAt s.pc.toNat).toNat * 256 + (s.byteAt (s.pc.toNat + 1)).toNat

/-- A step of a running core whose fetched word decodes is the instruction's `exec` at that state; around it the step only uses up
the cycle's input (the model's own fields, assumption 1), and it emits no event. -/
def Obligations.StepRunsDecodedInstruction : Prop :=
  ∀ (s : State) (w : Word) (i : Instr), s.halted = false → s.fetch = .ok w → decodeWord w = some i →
    (∃ t, exec i s = .next t ∧ step s = .next { t with inputs := s.inputs.tail, draws := s.draws + 1 }) ∧
    i.wellFormed = true ∧ (cycle s).event = none

/-- No instruction and no step ever stops without a next state: a fault is a next state with the record set (decisions D2 and D3;
the model's choice of assumption 5). -/
def Obligations.EveryStepAnswersNext : Prop :=
  (∀ (i : Instr) (s : State), ∃ t, exec i s = .next t) ∧ (∀ s : State, ∃ t, step s = .next t)

/-- Decision D3 (rule R87): however many cycles are issued to a halted core, nothing of it changes and no event is emitted; only the
model's own input fields move on (assumption 1). -/
def Obligations.HaltedCoreStaysHalted : Prop :=
  ∀ (s : State) (k : Nat), s.halted = true →
    (cycle s).event = none ∧ ∃ t, Host.Core.run Sys2Proof.core k s = .next t ∧
      t = { s with inputs := s.inputs.drop k, draws := s.draws + k }

/-- Decisions D2 and D4 (rules R88 and R95): a PC of 0xFFF or above cannot be fetched from. The cycle records FETCH_RANGE with the
first address out of range, and changes nothing else of the core (the input fields: assumption 1). -/
def Obligations.FetchOutsideMemoryFaults : Prop :=
  ∀ s : State, s.halted = false → 0xFFF ≤ s.pc.toNat →
    step s = .next { s with
      faultCode := 1, faultPc := s.pc, faultInfo := BitVec.ofNat 16 (max s.pc.toNat 0x1000),
      inputs := s.inputs.tail, draws := s.draws + 1 } ∧
    (cycle s).event = none

/-- Decision D2 (rules R95 and R144): a cycle that faults commits nothing. The core is as before it, but for the fault record, whose
FAULT_PC is the address of the faulting instruction and whose code is one of 1 to 7 (the input fields: assumption 1). -/
def Obligations.FaultIsPrecise : Prop :=
  ∀ s t : State, s.halted = false → step s = .next t → t.halted = true →
    t = { s with
      faultCode := t.faultCode, faultPc := s.pc, faultInfo := t.faultInfo,
      inputs := s.inputs.tail, draws := s.draws + 1 } ∧
    1 ≤ t.faultCode.toNat ∧ t.faultCode.toNat ≤ 7

/-- Decision D4 (rules R143 and R145): which instruction records which fault; no other instruction records one. -/
def Obligations.FaultsComeFromTheirInstructions : Prop :=
  ∀ (i : Instr) (s t : State), s.halted = false → exec i s = .next t → t.halted = true →
    ∃ k : FaultKind, mayRaise i k ∧ t.faultCode = k.code

/-- Rule R91: each timer goes down by one, not below 0, once in every cycle that does not fault, whatever the word, before the body:
a timer an instruction writes holds the written value at the end of the cycle, and Fx07 reads the ticked value. -/
def Obligations.TimersTickOncePerCycle : Prop :=
  ∀ s t : State, s.halted = false → step s = .next t → t.halted = false → ∀ w : Word, s.fetch = .ok w →
    (∀ x : Reg, decodeWord w = some (.ldDTVx x) → t.dt = s.reg x) ∧
    (∀ x : Reg, decodeWord w = some (.ldSTVx x) → t.st = s.reg x) ∧
    (∀ x : Reg, decodeWord w = some (.ldVxDT x) → (t.reg x).toNat = s.dt.toNat - 1) ∧
    ((∀ x : Reg, decodeWord w ≠ some (.ldDTVx x)) → t.dt.toNat = s.dt.toNat - 1) ∧
    ((∀ x : Reg, decodeWord w ≠ some (.ldSTVx x)) → t.st.toNat = s.st.toNat - 1)

/-! ## Control transfer (spec/41_control.md) -/

/-- Rule R100: a return pops S[SP - 1] into PC and leaves the entry in place; with an empty stack it raises STACK_UNDERFLOW. -/
def Obligations.ReturnPopsOrFaults : Prop :=
  decodeWord 0x00EE = some .ret ∧
  ∀ s : State,
    (∀ j : Fin 16, s.sp.val = j.val + 1 → ∃ t, exec .ret s = .next t ∧
      t.sp.val = j.val ∧ t.pc = s.entry j ∧ OnlyWrites [.stackPointer, .pc] s t) ∧
    (s.sp.val = 0 → exec .ret s = .next (s.raise ⟨.stackUnderflow, 0⟩))

/-- Rules R101 and R107: the two jumps. -/
def Obligations.JumpsSetPc : Prop :=
  ∀ nnn : Addr12,
    decodeWord (encodeNNN 0x1 nnn) = some (.jp nnn) ∧ decodeWord (encodeNNN 0xB nnn) = some (.jpV0 nnn) ∧
    ∀ s : State,
      (∃ t, exec (.jp nnn) s = .next t ∧ t.pc.toNat = nnn.toNat ∧ OnlyWrites [.pc] s t) ∧
      (∃ t, exec (.jpV0 nnn) s = .next t ∧ t.pc.toNat = nnn.toNat + (s.reg 0).toNat ∧ OnlyWrites [.pc] s t)

/-- Rule R102: a call pushes the address of the next instruction; with 16 entries it raises STACK_OVERFLOW. -/
def Obligations.CallPushesOrFaults : Prop :=
  ∀ nnn : Addr12,
    decodeWord (encodeNNN 0x2 nnn) = some (.call nnn) ∧
    ∀ s : State,
      (∀ j : Fin 16, s.sp.val = j.val → ∃ t, exec (.call nnn) s = .next t ∧
        t.entry j = s.pc + 2 ∧ t.sp.val = j.val + 1 ∧ t.pc.toNat = nnn.toNat ∧ OnlyWrites [.entry j, .stackPointer, .pc] s t) ∧
      (s.sp.val = 16 → exec (.call nnn) s = .next (s.raise ⟨.stackOverflow, BitVec.ofNat 16 nnn.toNat⟩))

/-- Rules R103 to R106: the four skips. -/
def Obligations.SkipsCompareAndSkip : Prop :=
  ∀ (x y : Reg) (kk : Byte),
    decodeWord (encodeXKK 0x3 x kk) = some (.seByte x kk) ∧ decodeWord (encodeXKK 0x4 x kk) = some (.sneByte x kk) ∧
    decodeWord (encodeXYN 0x5 x y 0) = some (.seReg x y) ∧ decodeWord (encodeXYN 0x9 x y 0) = some (.sneReg x y) ∧
    (∀ n : BitVec 4, n ≠ 0 → decodeWord (encodeXYN 0x5 x y n) = none ∧ decodeWord (encodeXYN 0x9 x y n) = none) ∧
    ∀ s : State,
      (∃ t, exec (.seByte x kk) s = .next t ∧ t.pc = s.pc + (if s.reg x = kk then 4 else 2) ∧ OnlyWrites [.pc] s t) ∧
      (∃ t, exec (.sneByte x kk) s = .next t ∧ t.pc = s.pc + (if s.reg x ≠ kk then 4 else 2) ∧ OnlyWrites [.pc] s t) ∧
      (∃ t, exec (.seReg x y) s = .next t ∧ t.pc = s.pc + (if s.reg x = s.reg y then 4 else 2) ∧ OnlyWrites [.pc] s t) ∧
      (∃ t, exec (.sneReg x y) s = .next t ∧ t.pc = s.pc + (if s.reg x ≠ s.reg y then 4 else 2) ∧ OnlyWrites [.pc] s t)

/-- Section R108 of spec/41_control.md, the spec's own derivation: a return after a call, with any states between that leave the
stack as the call left it, goes to the instruction after the call with the stack pointer from before it. -/
def Obligations.ReturnUndoesCall : Prop :=
  ∀ (nnn : Addr12) (s : State), s.sp.val < 16 →
    ∃ t, exec (.call nnn) s = .next t ∧
      ∀ u : State, u.sp = t.sp → (∀ j, u.entry j = t.entry j) → ∃ v, exec .ret u = .next v ∧ v.pc = s.pc + 2 ∧ v.sp = s.sp

/-- Corner case of 1nnn in spec/41_control.md: a jump to its own address repeats for as long as the host cycles, and only the timers
change, each down to 0. -/
def Obligations.SelfJumpOnlyTicks : Prop :=
  ∀ (s : State) (nnn : Addr12) (ops : List HostOp), s.halted = false → s.fetch = .ok (encodeNNN 0x1 nnn) →
    nnn.toNat = s.pc.toNat → (∀ op ∈ ops, ∃ k rnd, op = .cycle k rnd) →
    ∃ t, s.performAll ops = t ∧ t = { s with dt := t.dt, st := t.st, draws := s.draws + ops.length } ∧
      t.dt.toNat = s.dt.toNat - ops.length ∧ t.st.toNat = s.st.toNat - ops.length

/-! ## Register loads and ALU (spec/42_alu.md) -/

/-- Rules R109 and R110: the two immediate instructions; no flag. -/
def Obligations.LoadAndAddImmediate : Prop :=
  ∀ (x : Reg) (kk : Byte),
    decodeWord (encodeXKK 0x6 x kk) = some (.ldByte x kk) ∧ decodeWord (encodeXKK 0x7 x kk) = some (.addByte x kk) ∧
    ∀ s : State,
      (∃ t, exec (.ldByte x kk) s = .next t ∧ t.reg x = kk ∧ OnlyWrites [.reg x] s t) ∧
      (∃ t, exec (.addByte x kk) s = .next t ∧ (t.reg x).toNat = ((s.reg x).toNat + kk.toNat) % 256 ∧ OnlyWrites [.reg x] s t)

/-- Rules R111 to R114: the copy and the bitwise operations, bit by bit; VF is not reset. -/
def Obligations.CopyAndBitwise : Prop :=
  ∀ x y : Reg,
    decodeWord (encodeXYN 0x8 x y 0x0) = some (.ldReg x y) ∧ decodeWord (encodeXYN 0x8 x y 0x1) = some (.orReg x y) ∧
    decodeWord (encodeXYN 0x8 x y 0x2) = some (.andReg x y) ∧ decodeWord (encodeXYN 0x8 x y 0x3) = some (.xorReg x y) ∧
    ∀ s : State,
      (∃ t, exec (.ldReg x y) s = .next t ∧ t.reg x = s.reg y ∧ OnlyWrites [.reg x] s t) ∧
      (∃ t, exec (.orReg x y) s = .next t ∧
        (∀ b, (t.reg x).getLsbD b = ((s.reg x).getLsbD b || (s.reg y).getLsbD b)) ∧ OnlyWrites [.reg x] s t) ∧
      (∃ t, exec (.andReg x y) s = .next t ∧
        (∀ b, (t.reg x).getLsbD b = ((s.reg x).getLsbD b && (s.reg y).getLsbD b)) ∧ OnlyWrites [.reg x] s t) ∧
      (∃ t, exec (.xorReg x y) s = .next t ∧
        (∀ b, (t.reg x).getLsbD b = ((s.reg x).getLsbD b ^^ (s.reg y).getLsbD b)) ∧ OnlyWrites [.reg x] s t)

/-- Rules R115, R116 and R118: addition with carry and the two subtractions with a strict comparison. VF ends as the flag, also for
x = F, where the result is lost. -/
def Obligations.AddAndSubtractWithFlag : Prop :=
  ∀ x y : Reg,
    decodeWord (encodeXYN 0x8 x y 0x4) = some (.addReg x y) ∧ decodeWord (encodeXYN 0x8 x y 0x5) = some (.subReg x y) ∧
    decodeWord (encodeXYN 0x8 x y 0x7) = some (.subnReg x y) ∧
    ∀ (s : State) (a b : Nat), a = (s.reg x).toNat → b = (s.reg y).toNat →
      (∃ t, exec (.addReg x y) s = .next t ∧ t.reg 15 = (if a + b > 255 then 1 else 0) ∧
        (x ≠ 15 → (t.reg x).toNat = (a + b) % 256) ∧ OnlyWrites [.reg x, .reg 15] s t) ∧
      (∃ t, exec (.subReg x y) s = .next t ∧ t.reg 15 = (if a > b then 1 else 0) ∧
        (x ≠ 15 → (t.reg x).toNat = (a + 256 - b) % 256) ∧ OnlyWrites [.reg x, .reg 15] s t) ∧
      (∃ t, exec (.subnReg x y) s = .next t ∧ t.reg 15 = (if b > a then 1 else 0) ∧
        (x ≠ 15 → (t.reg x).toNat = (b + 256 - a) % 256) ∧ OnlyWrites [.reg x, .reg 15] s t)

/-- Rules R117 and R119: the shifts of Vx by one. VF ends as the bit shifted out, also for x = F; Vy is not read. -/
def Obligations.ShiftsOfVx : Prop :=
  ∀ x y : Reg,
    decodeWord (encodeXYN 0x8 x y 0x6) = some (.shr x y) ∧ decodeWord (encodeXYN 0x8 x y 0xE) = some (.shl x y) ∧
    ∀ (s : State) (a : Nat), a = (s.reg x).toNat →
      (∃ t, exec (.shr x y) s = .next t ∧ (t.reg 15).toNat = a % 2 ∧
        (x ≠ 15 → (t.reg x).toNat = a / 2) ∧ OnlyWrites [.reg x, .reg 15] s t) ∧
      (∃ t, exec (.shl x y) s = .next t ∧ (t.reg 15).toNat = a / 128 ∧
        (x ≠ 15 → (t.reg x).toNat = a * 2 % 256) ∧ OnlyWrites [.reg x, .reg 15] s t)

/-- Cxkk in spec/42_alu.md with decision D11: the result is the cycle's random byte masked by kk, for every random byte, because the
input of s is free (assumption 1). -/
def Obligations.RandomByteIsMasked : Prop :=
  ∀ (x : Reg) (kk : Byte),
    decodeWord (encodeXKK 0xC x kk) = some (.rnd x kk) ∧
    ∀ s : State, ∃ t, exec (.rnd x kk) s = .next t ∧
      (∀ b, (t.reg x).getLsbD b = (s.input.rnd.getLsbD b && kk.getLsbD b)) ∧ OnlyWrites [.reg x] s t

/-! ## Index register and memory (spec/43_index_memory.md) -/

/-- Rules R122 and R124: loading I with an address or with the address of a glyph, Vx not masked. -/
def Obligations.LoadIndexAndGlyph : Prop :=
  ∀ (x : Reg) (nnn : Addr12),
    decodeWord (encodeNNN 0xA nnn) = some (.ldI nnn) ∧ decodeWord (encodeXKK 0xF x 0x29) = some (.ldFVx x) ∧
    ∀ s : State,
      (∃ t, exec (.ldI nnn) s = .next t ∧ t.i.toNat = nnn.toNat ∧ OnlyWrites [.index] s t) ∧
      (∃ t, exec (.ldFVx x) s = .next t ∧ t.i.toNat = (s.reg x).toNat * 5 ∧ OnlyWrites [.index] s t)

/-- Fx1E in spec/43_index_memory.md: a sum modulo 2^16. That VF is not written is the spec's decision D25. -/
def Obligations.AddToIndex : Prop :=
  ∀ x : Reg,
    decodeWord (encodeXKK 0xF x 0x1E) = some (.addIVx x) ∧
    ∀ s : State, ∃ t, exec (.addIVx x) s = .next t ∧ t.i.toNat = (s.i.toNat + (s.reg x).toNat) % 65536 ∧ OnlyWrites [.index] s t

/-- Fx33 in spec/43_index_memory.md: the three decimal digits at I, I + 1, I + 2; I unchanged is the spec's own derivation. The
faults are those of decision D7 and of the range check. -/
def Obligations.StoreDecimalDigits : Prop :=
  ∀ x : Reg,
    decodeWord (encodeXKK 0xF x 0x33) = some (.ldBVx x) ∧
    ∀ (s : State) (a v : Nat), a = s.i.toNat → v = (s.reg x).toNat →
      (a + 2 < 4096 → (0x200 ≤ a ∨ s.cfg.lowWrite = .allow) → ∃ t, exec (.ldBVx x) s = .next t ∧
        (t.byteAt a).toNat = v / 100 ∧ (t.byteAt (a + 1)).toNat = v / 10 % 10 ∧ (t.byteAt (a + 2)).toNat = v % 10 ∧
        OnlyWrites (bytesFrom a 3) s t) ∧
      (4096 ≤ a + 2 → exec (.ldBVx x) s = .next (s.raise ⟨.writeRange, BitVec.ofNat 16 (max a 4096)⟩)) ∧
      (a < 0x200 → s.cfg.lowWrite = .fault → exec (.ldBVx x) s = .next (s.raise ⟨.lowWrite, s.i⟩))

/-- Fx55 in spec/43_index_memory.md: V0 to Vx at I to I + x, then I advanced by x + 1. The faults are those of decision D7 and of
the range check; no byte is then written. -/
def Obligations.StoreRegisters : Prop :=
  ∀ x : Reg,
    decodeWord (encodeXKK 0xF x 0x55) = some (.ldMemVx x) ∧
    ∀ (s : State) (a : Nat), a = s.i.toNat →
      (a + x.val < 4096 → (0x200 ≤ a ∨ s.cfg.lowWrite = .allow) → ∃ t, exec (.ldMemVx x) s = .next t ∧
        (∀ k : Reg, k.val ≤ x.val → t.byteAt (a + k.val) = s.reg k) ∧ t.i.toNat = (a + x.val + 1) % 65536 ∧
        OnlyWrites (.index :: bytesFrom a (x.val + 1)) s t) ∧
      (4096 ≤ a + x.val → exec (.ldMemVx x) s = .next (s.raise ⟨.writeRange, BitVec.ofNat 16 (max a 4096)⟩)) ∧
      (a < 0x200 → s.cfg.lowWrite = .fault → exec (.ldMemVx x) s = .next (s.raise ⟨.lowWrite, s.i⟩))

/-- Rule R127: V0 to Vx from I to I + x, then I advanced by x + 1; a read outside memory raises READ_RANGE. -/
def Obligations.LoadRegisters : Prop :=
  ∀ x : Reg,
    decodeWord (encodeXKK 0xF x 0x65) = some (.ldVxMem x) ∧
    ∀ (s : State) (a : Nat), a = s.i.toNat →
      (a + x.val < 4096 → ∃ t, exec (.ldVxMem x) s = .next t ∧
        (∀ k : Reg, k.val ≤ x.val → t.reg k = s.byteAt (a + k.val)) ∧ t.i.toNat = (a + x.val + 1) % 65536 ∧
        OnlyWrites (.index :: regsUpTo x) s t) ∧
      (4096 ≤ a + x.val → exec (.ldVxMem x) s = .next (s.raise ⟨.readRange, BitVec.ofNat 16 (max a 4096)⟩))

/-- Sections 4 and 5 of spec/20_memory.md (`MemRead`, `MemWrite`; the low check is decision D7): a read and a write of one byte at
any address, read-after-write, every other byte kept, and the two faults. -/
def Obligations.ByteAccessRules : Prop :=
  ∀ (s : State) (a : Nat) (b : Byte),
    (a < 4096 → s.memRead a = .ok (s.byteAt a)) ∧
    (4096 ≤ a → s.memRead a = .error ⟨.readRange, BitVec.ofNat 16 a⟩) ∧
    (a < 4096 → (0x200 ≤ a ∨ s.cfg.lowWrite = .allow) → ∃ t, s.memWrite a b = .ok t ∧ t = { s with mem := t.mem } ∧
      t.byteAt a = b ∧ ∀ q, q ≠ a → t.byteAt q = s.byteAt q) ∧
    (4096 ≤ a → s.memWrite a b = .error ⟨.writeRange, BitVec.ofNat 16 a⟩) ∧
    (a < 0x200 → s.cfg.lowWrite = .fault → s.memWrite a b = .error ⟨.lowWrite, BitVec.ofNat 16 a⟩)

/-- Section 8 of spec/20_memory.md, the spec's own derivation: a word that Fx55 stores where PC goes next is what the next cycle
fetches. -/
def Obligations.FetchSeesTheLastStore : Prop :=
  ∀ (x : Reg) (s : State), 1 ≤ x.val → s.i = s.pc + 2 → 0x200 ≤ s.i.toNat → s.i.toNat + x.val < 4096 →
    ∃ t, exec (.ldMemVx x) s = .next t ∧
      ∃ w : Word, t.fetch = .ok w ∧ w.toNat = (s.reg 0).toNat * 256 + (s.reg 1).toNat

/-! ## Display (spec/44_display.md) -/

/-- Rule R129: every pixel off, no flag. -/
def Obligations.ClearDisplay : Prop :=
  decodeWord 0x00E0 = some .cls ∧
  ∀ s : State, ∃ t, exec .cls s = .next t ∧ (∀ r c, t.pixel r c = false) ∧ OnlyWrites [.display] s t

/-- Rules R130 to R132: a pixel is inverted exactly where a sprite bit of 1 lands inside the buffer, VF is 1 exactly when one of these
pixels was on, and a sprite byte outside memory raises READ_RANGE; n = 0 reads and draws nothing. -/
def Obligations.DrawInvertsCoveredPixels : Prop :=
  ∀ (x y : Reg) (n : Nat),
    (n < 16 → decodeWord (encodeXYN 0xD x y (BitVec.ofNat 4 n)) = some (.drw x y n)) ∧
    ∀ s : State,
      ((n = 0 ∨ s.i.toNat + n ≤ 4096) → ∃ t, exec (.drw x y n) s = .next t ∧
        (∀ r c, (SpriteCovers s x y n r c → t.pixel r c = !s.pixel r c) ∧
          (¬SpriteCovers s x y n r c → t.pixel r c = s.pixel r c)) ∧
        (t.reg 15 = 1 ∧ (∃ r c, SpriteCovers s x y n r c ∧ s.pixel r c = true) ∨
          t.reg 15 = 0 ∧ ¬∃ r c, SpriteCovers s x y n r c ∧ s.pixel r c = true) ∧
        OnlyWrites [.display, .reg 15] s t) ∧
      (0 < n → 4096 < s.i.toNat + n →
        exec (.drw x y n) s = .next (s.raise ⟨.readRange, BitVec.ofNat 16 (max s.i.toNat 4096)⟩))

/-- Section R133 of spec/44_display.md, the spec's own derivation: the same sprite drawn twice restores the buffer, and the second
draw collides exactly when the first one turned a pixel on. The coordinates stay the same because neither is VF. -/
def Obligations.DrawTwiceRestores : Prop :=
  ∀ (x y : Reg) (n : Nat) (s : State), x ≠ 15 → y ≠ 15 → (n = 0 ∨ s.i.toNat + n ≤ 4096) →
    ∃ t u, exec (.drw x y n) s = .next t ∧ exec (.drw x y n) t = .next u ∧
      (∀ r c, u.pixel r c = s.pixel r c) ∧
      (u.reg 15 = 1 ↔ ∃ r c, t.pixel r c = true ∧ s.pixel r c = false)

/-! ## Keys and timers (spec/45_keys_timers.md) -/

/-- Ex9E and ExA1 in spec/45_keys_timers.md. The key number 0 to 15 is a bit of the cycle's sample; what a larger number does is the
policy of decision D8. -/
def Obligations.KeySkips : Prop :=
  ∀ x : Reg,
    decodeWord (encodeXKK 0xE x 0x9E) = some (.skp x) ∧ decodeWord (encodeXKK 0xE x 0xA1) = some (.sknp x) ∧
    ∀ (s : State) (v : Nat), v = (s.reg x).toNat →
      (∀ down : Bool, (v ≤ 0xF ∧ down = s.input.keys.getLsbD v ∨
          0xF < v ∧ s.cfg.keyRange = .lowNibble ∧ down = s.input.keys.getLsbD (v % 16) ∨
          0xF < v ∧ s.cfg.keyRange = .notDown ∧ down = false) →
        (∃ t, exec (.skp x) s = .next t ∧ t.pc = s.pc + (if down = true then 4 else 2) ∧ OnlyWrites [.pc] s t) ∧
        (∃ t, exec (.sknp x) s = .next t ∧ t.pc = s.pc + (if down = false then 4 else 2) ∧ OnlyWrites [.pc] s t)) ∧
      (0xF < v → s.cfg.keyRange = .fault →
        exec (.skp x) s = .next (s.raise ⟨.keyRange, BitVec.ofNat 16 v⟩) ∧
        exec (.sknp x) s = .next (s.raise ⟨.keyRange, BitVec.ofNat 16 v⟩))

/-- Fx07, Fx15 and Fx18 in spec/45_keys_timers.md (R137, R140, R141): reading DT gives the ticked value, and a written timer holds Vx
at the end of the cycle. That sound is active exactly when ST is not 0, so not active for Vx = 0, is `sound_active` of R42 and R157,
the spec's decision D15. -/
def Obligations.TimerInstructions : Prop :=
  ∀ x : Reg,
    decodeWord (encodeXKK 0xF x 0x07) = some (.ldVxDT x) ∧ decodeWord (encodeXKK 0xF x 0x15) = some (.ldDTVx x) ∧
    decodeWord (encodeXKK 0xF x 0x18) = some (.ldSTVx x) ∧
    ∀ s : State,
      (∃ t, exec (.ldVxDT x) s = .next t ∧ (t.reg x).toNat = s.dt.toNat - 1 ∧ OnlyWrites [.reg x] s t) ∧
      (∃ t, exec (.ldDTVx x) s = .next t ∧ t.dt = s.reg x ∧ OnlyWrites [.delay] s t) ∧
      (∃ t, exec (.ldSTVx x) s = .next t ∧ t.st = s.reg x ∧ (t.soundActive = true ↔ s.reg x ≠ 0) ∧ OnlyWrites [.sound] s t)

/-- Rules R138 and R139: with no key down PC is back at the Fx0A and only the timers moved; else Vx is the least key down. -/
def Obligations.WaitForKey : Prop :=
  ∀ x : Reg,
    decodeWord (encodeXKK 0xF x 0x0A) = some (.ldVxK x) ∧
    ∀ s : State,
      (s.input.keys = 0 → ∃ t, exec (.ldVxK x) s = .next t ∧ t.pc = s.pc ∧ OnlyWrites [.pc] s t) ∧
      (∀ k : Fin 16, s.input.keys.getLsbD k.val = true → (∀ j : Fin 16, j < k → s.input.keys.getLsbD j.val = false) →
        ∃ t, exec (.ldVxK x) s = .next t ∧ (t.reg x).toNat = k.val ∧ OnlyWrites [.reg x] s t) ∧
      (s.input.keys ≠ 0 → ∃ k : Fin 16, s.input.keys.getLsbD k.val = true ∧
        ∀ j : Fin 16, j < k → s.input.keys.getLsbD j.val = false)

/-- Corner case of Fx0A in spec/45_keys_timers.md: however many cycles the host issues with no key down, the wait goes on, and only
the timers count down. -/
def Obligations.KeyWaitOnlyTicks : Prop :=
  ∀ (s : State) (x : Reg) (ops : List HostOp), s.halted = false → s.fetch = .ok (encodeXKK 0xF x 0x0A) →
    (∀ op ∈ ops, ∃ rnd, op = .cycle 0 rnd) →
    ∃ t, s.performAll ops = t ∧ t = { s with dt := t.dt, st := t.st, draws := s.draws + ops.length } ∧
      t.dt.toNat = s.dt.toNat - ops.length ∧ t.st.toNat = s.st.toNat - ops.length

/-! ## Rules about all instructions -/

/-- Rule R20 (the flag half, sections 1 and 6 of spec/10_state.md): the six flag instructions leave VF at 0 or 1 whenever they
complete, whatever it held. -/
def Obligations.FlagInstructionsLeaveZeroOrOne : Prop :=
  ∀ (i : Instr) (s t : State), s.halted = false → exec i s = .next t → t.halted = false →
    (∃ x y, i = .addReg x y ∨ i = .subReg x y ∨ i = .shr x y ∨ i = .subnReg x y ∨ i = .shl x y ∨ ∃ n, i = .drw x y n) →
    t.reg 15 = 0 ∨ t.reg 15 = 1

/-- Section 1 of spec/10_state.md (the spec's own derivation, R21): no instruction changes a general register but those it is listed
to write. -/
def Obligations.GeneralRegisterWriters : Prop :=
  ∀ (i : Instr) (s t : State) (r : Reg), exec i s = .next t → r ∉ writtenRegs i → t.reg r = s.reg r

/-- Sections 3, 4 and 7 of spec/10_state.md: who may change I, SP and the stack entries. That no instruction changes the configuration
is the model's choice of assumption 3, which holds it in the state; section 14 (R48) puts it outside. -/
def Obligations.IndexAndStackWriters : Prop :=
  ∀ (i : Instr) (s t : State), exec i s = .next t →
    (t.i ≠ s.i → (∃ nnn, i = .ldI nnn) ∨ ∃ x, i = .addIVx x ∨ i = .ldFVx x ∨ i = .ldMemVx x ∨ i = .ldVxMem x) ∧
    (t.sp ≠ s.sp → (∃ nnn, i = .call nnn) ∨ i = .ret) ∧
    ((∃ j, t.entry j ≠ s.entry j) → ∃ nnn, i = .call nnn) ∧
    t.cfg = s.cfg

/-- Section 4 of spec/20_memory.md (the spec's own table, R56): a byte of memory changes only by Fx33, at I to I + 2, or by Fx55, at
I to I + x. -/
def Obligations.MemoryWriters : Prop :=
  ∀ (i : Instr) (s t : State) (a : Nat), exec i s = .next t → t.byteAt a ≠ s.byteAt a →
    ∃ x : Reg, (i = .ldBVx x ∧ s.i.toNat ≤ a ∧ a < s.i.toNat + 3) ∨ (i = .ldMemVx x ∧ s.i.toNat ≤ a ∧ a ≤ s.i.toNat + x.val)

/-- Section 8 of spec/10_state.md: only 00E0 and Dxyn change a pixel. -/
def Obligations.DisplayWriters : Prop :=
  ∀ (i : Instr) (s t : State) (r : Fin 32) (c : Fin 64), exec i s = .next t → t.pixel r c ≠ s.pixel r c →
    i = .cls ∨ ∃ x y n, i = .drw x y n

/-- Decision D7 (section 5 of spec/20_memory.md): under the default policy no step changes a byte below 0x200. -/
def Obligations.LowMemoryNeverOverwritten : Prop :=
  ∀ (s t : State) (a : Nat), s.cfg.lowWrite = .fault → step s = .next t → a < 0x200 → t.byteAt a = s.byteAt a

/-- Decisions D10 and D11 (section 3 of spec/40_cycle.md): only Ex9E, ExA1, Fx0A and Cxkk depend on the cycle's inputs. -/
def Obligations.InputsReadOnlyByKeyAndRandom : Prop :=
  ∀ (i : Instr) (s t : State) (ins : List CycleInput) (d : Nat),
    (∀ x, i ≠ .skp x ∧ i ≠ .sknp x ∧ i ≠ .ldVxK x ∧ ∀ kk, i ≠ .rnd x kk) → exec i s = .next t →
    exec i { s with inputs := ins, draws := d } = .next { t with inputs := ins, draws := d }

/-- Sections 5 and 9 of spec/10_state.md: no instruction reads ST or the fault record. Whatever they hold, everything else an
instruction leaves is the same. -/
def Obligations.SoundTimerAndFaultRecordAreNotRead : Prop :=
  ∀ (i : Instr) (s t : State) (b : Byte) (c : BitVec 4) (p q : Word), exec i s = .next t →
    ∃ u, exec i { s with st := b, faultCode := c, faultPc := p, faultInfo := q } = .next u ∧
      u = { t with st := u.st, faultCode := u.faultCode, faultPc := u.faultPc, faultInfo := u.faultInfo }

/-! ## Invariants -/

/-- The invariant holds after reset, under every configuration. -/
def Obligations.ResetMeetsInvariant : Prop := State.reset.Inv ∧ ∀ c : Config, (State.resetWith c).Inv

/-- Every step keeps the invariant: memory canonical, PC at most 0x10FE and return addresses at most 0x1000 (the spec's own
derivations R23 and R99), FAULT_CODE a code of R143, the record clear while the core runs. -/
def Obligations.StepKeepsInvariant : Prop := ∀ s t : State, s.Inv → step s = .next t → t.Inv

/-- Every operation of the host keeps the invariant, so every state of a run from a state that meets it does. -/
def Obligations.OperationsKeepInvariant : Prop :=
  (∀ (s : State) (op : HostOp), s.Inv → (s.perform op).2.Inv) ∧ ∀ (s : State) (ops : List HostOp), s.Inv → (s.performAll ops).Inv

/-! ## Reset, load and the other host operations (spec/70_reset_and_hazards.md, section 12 of spec/10_state.md) -/

/-- The reset table of spec/10_state.md, whole: the rows the source gives (V, I, PC, DT, ST, font) and those of decision D5 (SP, S,
FB, the rest of memory, the fault record). RESET gives them whatever the state was (decision D22); so does
`State.resetWith`, which is `State.reset` for the default configuration. -/
def Obligations.ResetGivesTheResetValues : Prop :=
  ∀ s t : State, t = (s.perform .reset).2 ∨ t = State.resetWith s.cfg →
    (∀ r, t.reg r = 0) ∧ t.i = 0 ∧ t.pc = 0x200 ∧ t.sp.val = 0 ∧ (∀ j, t.entry j = 0) ∧ t.dt = 60 ∧ t.st = 60 ∧
    (∀ r c, t.pixel r c = false) ∧ (∀ (a : Nat) (h : a < 80), t.byteAt a = s.cfg.font[a]) ∧ (∀ a, 80 ≤ a → t.byteAt a = 0) ∧
    t.faultCode = 0 ∧ t.faultPc = 0 ∧ t.faultInfo = 0 ∧ t.halted = false

/-- Section 3 of spec/70_reset_and_hazards.md with decision D16: a load of at most 3584 bytes writes them from 0x200 and nothing else;
a longer one is rejected and changes nothing. -/
def Obligations.LoadIsAllOrNothing : Prop :=
  ∀ (s : State) (b : List Byte),
    (3584 < b.length → s.perform (.load b) = (.loadRejected, s)) ∧
    (b.length ≤ 3584 → ∃ t, s.perform (.load b) = (.loadOk, t) ∧ t = { s with mem := t.mem } ∧
      (∀ (k : Nat) (h : k < b.length), t.byteAt (0x200 + k) = b[k]) ∧
      ∀ a, a < 0x200 ∨ 0x200 + b.length ≤ a → t.byteAt a = s.byteAt a)

/-- Decisions D3 and D22 (sections 1 and 2 of spec/70_reset_and_hazards.md): a halted core keeps its fault record under every
operation but RESET, which makes it run. -/
def Obligations.OnlyResetLeavesTheHalt : Prop :=
  ∀ (s : State) (op : HostOp), s.halted = true →
    (op ≠ .reset → (s.perform op).2.faultCode = s.faultCode ∧ (s.perform op).2.faultPc = s.faultPc ∧
      (s.perform op).2.faultInfo = s.faultInfo) ∧
    (s.perform .reset).2.halted = false

/-- Section 12 of spec/10_state.md (decisions D4, D15 and D21): READ gives the pixels, the sound level and the fault record, and
changes nothing. -/
def Obligations.ReadShowsTheOutputs : Prop :=
  ∀ s : State, ∃ o : ReadOut, s.perform .read = (.out o, s) ∧ (∀ (r : Fin 32) (c : Fin 64), o.fb[r][c] = s.pixel r c) ∧
    (o.soundActive = true ↔ 0 < s.st.toNat) ∧ o.faultCode = s.faultCode ∧ o.faultPc = s.faultPc ∧ o.faultInfo = s.faultInfo

/-- Section 12 of spec/10_state.md: the K and RND of `CYCLE(K, RND)` are what the cycle's instruction reads, and no other cycle has
them: shown by Cxkk and Fx0A. -/
def Obligations.CycleDeliversItsInputs : Prop :=
  ∀ (s t : State) (x : Reg) (kk : Byte) (k : Fin 16) (keys : BitVec 16) (rnd : Byte), s.halted = false →
    t = (s.perform (.cycle keys rnd)).2 →
    (s.fetch = .ok (encodeXKK 0xC x kk) → t.reg x = rnd &&& kk ∧ t.inputs = s.inputs) ∧
    (s.fetch = .ok (encodeXKK 0xF x 0x0A) → keys = BitVec.twoPow 16 k.val → (t.reg x).toNat = k.val ∧ t.inputs = s.inputs)
end

