-- ==== Sys2Proof/Laws/State.lean ====
section
/-! SUPPORT. One lemma per field per update of the state, true by rfl, so that no later proof unfolds a record update. Then the
same for the observers `reg`, `byteAt`, `pixel`, `entry` and `input`. -/

namespace Sys2Proof.Machine

/-! ## setReg -/

@[simp] theorem State.setReg_v (s : State) (r : Reg) (b : Byte) : (s.setReg r b).v = s.v.set r b := rfl
@[simp] theorem State.setReg_i (s : State) (r : Reg) (b : Byte) : (s.setReg r b).i = s.i := rfl
@[simp] theorem State.setReg_pc (s : State) (r : Reg) (b : Byte) : (s.setReg r b).pc = s.pc := rfl
@[simp] theorem State.setReg_stack (s : State) (r : Reg) (b : Byte) : (s.setReg r b).stack = s.stack := rfl
@[simp] theorem State.setReg_sp (s : State) (r : Reg) (b : Byte) : (s.setReg r b).sp = s.sp := rfl
@[simp] theorem State.setReg_dt (s : State) (r : Reg) (b : Byte) : (s.setReg r b).dt = s.dt := rfl
@[simp] theorem State.setReg_st (s : State) (r : Reg) (b : Byte) : (s.setReg r b).st = s.st := rfl
@[simp] theorem State.setReg_fb (s : State) (r : Reg) (b : Byte) : (s.setReg r b).fb = s.fb := rfl
@[simp] theorem State.setReg_mem (s : State) (r : Reg) (b : Byte) : (s.setReg r b).mem = s.mem := rfl
@[simp] theorem State.setReg_faultCode (s : State) (r : Reg) (b : Byte) : (s.setReg r b).faultCode = s.faultCode := rfl
@[simp] theorem State.setReg_faultPc (s : State) (r : Reg) (b : Byte) : (s.setReg r b).faultPc = s.faultPc := rfl
@[simp] theorem State.setReg_faultInfo (s : State) (r : Reg) (b : Byte) : (s.setReg r b).faultInfo = s.faultInfo := rfl
@[simp] theorem State.setReg_cfg (s : State) (r : Reg) (b : Byte) : (s.setReg r b).cfg = s.cfg := rfl
@[simp] theorem State.setReg_inputs (s : State) (r : Reg) (b : Byte) : (s.setReg r b).inputs = s.inputs := rfl
@[simp] theorem State.setReg_draws (s : State) (r : Reg) (b : Byte) : (s.setReg r b).draws = s.draws := rfl

/-! ## setI -/

@[simp] theorem State.setI_v (s : State) (w : Word) : (s.setI w).v = s.v := rfl
@[simp] theorem State.setI_i (s : State) (w : Word) : (s.setI w).i = w := rfl
@[simp] theorem State.setI_pc (s : State) (w : Word) : (s.setI w).pc = s.pc := rfl
@[simp] theorem State.setI_stack (s : State) (w : Word) : (s.setI w).stack = s.stack := rfl
@[simp] theorem State.setI_sp (s : State) (w : Word) : (s.setI w).sp = s.sp := rfl
@[simp] theorem State.setI_dt (s : State) (w : Word) : (s.setI w).dt = s.dt := rfl
@[simp] theorem State.setI_st (s : State) (w : Word) : (s.setI w).st = s.st := rfl
@[simp] theorem State.setI_fb (s : State) (w : Word) : (s.setI w).fb = s.fb := rfl
@[simp] theorem State.setI_mem (s : State) (w : Word) : (s.setI w).mem = s.mem := rfl
@[simp] theorem State.setI_faultCode (s : State) (w : Word) : (s.setI w).faultCode = s.faultCode := rfl
@[simp] theorem State.setI_faultPc (s : State) (w : Word) : (s.setI w).faultPc = s.faultPc := rfl
@[simp] theorem State.setI_faultInfo (s : State) (w : Word) : (s.setI w).faultInfo = s.faultInfo := rfl
@[simp] theorem State.setI_cfg (s : State) (w : Word) : (s.setI w).cfg = s.cfg := rfl
@[simp] theorem State.setI_inputs (s : State) (w : Word) : (s.setI w).inputs = s.inputs := rfl
@[simp] theorem State.setI_draws (s : State) (w : Word) : (s.setI w).draws = s.draws := rfl

/-! ## setPc -/

@[simp] theorem State.setPc_v (s : State) (w : Word) : (s.setPc w).v = s.v := rfl
@[simp] theorem State.setPc_i (s : State) (w : Word) : (s.setPc w).i = s.i := rfl
@[simp] theorem State.setPc_pc (s : State) (w : Word) : (s.setPc w).pc = w := rfl
@[simp] theorem State.setPc_stack (s : State) (w : Word) : (s.setPc w).stack = s.stack := rfl
@[simp] theorem State.setPc_sp (s : State) (w : Word) : (s.setPc w).sp = s.sp := rfl
@[simp] theorem State.setPc_dt (s : State) (w : Word) : (s.setPc w).dt = s.dt := rfl
@[simp] theorem State.setPc_st (s : State) (w : Word) : (s.setPc w).st = s.st := rfl
@[simp] theorem State.setPc_fb (s : State) (w : Word) : (s.setPc w).fb = s.fb := rfl
@[simp] theorem State.setPc_mem (s : State) (w : Word) : (s.setPc w).mem = s.mem := rfl
@[simp] theorem State.setPc_faultCode (s : State) (w : Word) : (s.setPc w).faultCode = s.faultCode := rfl
@[simp] theorem State.setPc_faultPc (s : State) (w : Word) : (s.setPc w).faultPc = s.faultPc := rfl
@[simp] theorem State.setPc_faultInfo (s : State) (w : Word) : (s.setPc w).faultInfo = s.faultInfo := rfl
@[simp] theorem State.setPc_cfg (s : State) (w : Word) : (s.setPc w).cfg = s.cfg := rfl
@[simp] theorem State.setPc_inputs (s : State) (w : Word) : (s.setPc w).inputs = s.inputs := rfl
@[simp] theorem State.setPc_draws (s : State) (w : Word) : (s.setPc w).draws = s.draws := rfl

/-! ## setDt -/

@[simp] theorem State.setDt_v (s : State) (b : Byte) : (s.setDt b).v = s.v := rfl
@[simp] theorem State.setDt_i (s : State) (b : Byte) : (s.setDt b).i = s.i := rfl
@[simp] theorem State.setDt_pc (s : State) (b : Byte) : (s.setDt b).pc = s.pc := rfl
@[simp] theorem State.setDt_stack (s : State) (b : Byte) : (s.setDt b).stack = s.stack := rfl
@[simp] theorem State.setDt_sp (s : State) (b : Byte) : (s.setDt b).sp = s.sp := rfl
@[simp] theorem State.setDt_dt (s : State) (b : Byte) : (s.setDt b).dt = b := rfl
@[simp] theorem State.setDt_st (s : State) (b : Byte) : (s.setDt b).st = s.st := rfl
@[simp] theorem State.setDt_fb (s : State) (b : Byte) : (s.setDt b).fb = s.fb := rfl
@[simp] theorem State.setDt_mem (s : State) (b : Byte) : (s.setDt b).mem = s.mem := rfl
@[simp] theorem State.setDt_faultCode (s : State) (b : Byte) : (s.setDt b).faultCode = s.faultCode := rfl
@[simp] theorem State.setDt_faultPc (s : State) (b : Byte) : (s.setDt b).faultPc = s.faultPc := rfl
@[simp] theorem State.setDt_faultInfo (s : State) (b : Byte) : (s.setDt b).faultInfo = s.faultInfo := rfl
@[simp] theorem State.setDt_cfg (s : State) (b : Byte) : (s.setDt b).cfg = s.cfg := rfl
@[simp] theorem State.setDt_inputs (s : State) (b : Byte) : (s.setDt b).inputs = s.inputs := rfl
@[simp] theorem State.setDt_draws (s : State) (b : Byte) : (s.setDt b).draws = s.draws := rfl

/-! ## setSt -/

@[simp] theorem State.setSt_v (s : State) (b : Byte) : (s.setSt b).v = s.v := rfl
@[simp] theorem State.setSt_i (s : State) (b : Byte) : (s.setSt b).i = s.i := rfl
@[simp] theorem State.setSt_pc (s : State) (b : Byte) : (s.setSt b).pc = s.pc := rfl
@[simp] theorem State.setSt_stack (s : State) (b : Byte) : (s.setSt b).stack = s.stack := rfl
@[simp] theorem State.setSt_sp (s : State) (b : Byte) : (s.setSt b).sp = s.sp := rfl
@[simp] theorem State.setSt_dt (s : State) (b : Byte) : (s.setSt b).dt = s.dt := rfl
@[simp] theorem State.setSt_st (s : State) (b : Byte) : (s.setSt b).st = b := rfl
@[simp] theorem State.setSt_fb (s : State) (b : Byte) : (s.setSt b).fb = s.fb := rfl
@[simp] theorem State.setSt_mem (s : State) (b : Byte) : (s.setSt b).mem = s.mem := rfl
@[simp] theorem State.setSt_faultCode (s : State) (b : Byte) : (s.setSt b).faultCode = s.faultCode := rfl
@[simp] theorem State.setSt_faultPc (s : State) (b : Byte) : (s.setSt b).faultPc = s.faultPc := rfl
@[simp] theorem State.setSt_faultInfo (s : State) (b : Byte) : (s.setSt b).faultInfo = s.faultInfo := rfl
@[simp] theorem State.setSt_cfg (s : State) (b : Byte) : (s.setSt b).cfg = s.cfg := rfl
@[simp] theorem State.setSt_inputs (s : State) (b : Byte) : (s.setSt b).inputs = s.inputs := rfl
@[simp] theorem State.setSt_draws (s : State) (b : Byte) : (s.setSt b).draws = s.draws := rfl

/-! ## setFb -/

@[simp] theorem State.setFb_v (s : State) (f : Screen) : (s.setFb f).v = s.v := rfl
@[simp] theorem State.setFb_i (s : State) (f : Screen) : (s.setFb f).i = s.i := rfl
@[simp] theorem State.setFb_pc (s : State) (f : Screen) : (s.setFb f).pc = s.pc := rfl
@[simp] theorem State.setFb_stack (s : State) (f : Screen) : (s.setFb f).stack = s.stack := rfl
@[simp] theorem State.setFb_sp (s : State) (f : Screen) : (s.setFb f).sp = s.sp := rfl
@[simp] theorem State.setFb_dt (s : State) (f : Screen) : (s.setFb f).dt = s.dt := rfl
@[simp] theorem State.setFb_st (s : State) (f : Screen) : (s.setFb f).st = s.st := rfl
@[simp] theorem State.setFb_fb (s : State) (f : Screen) : (s.setFb f).fb = f := rfl
@[simp] theorem State.setFb_mem (s : State) (f : Screen) : (s.setFb f).mem = s.mem := rfl
@[simp] theorem State.setFb_faultCode (s : State) (f : Screen) : (s.setFb f).faultCode = s.faultCode := rfl
@[simp] theorem State.setFb_faultPc (s : State) (f : Screen) : (s.setFb f).faultPc = s.faultPc := rfl
@[simp] theorem State.setFb_faultInfo (s : State) (f : Screen) : (s.setFb f).faultInfo = s.faultInfo := rfl
@[simp] theorem State.setFb_cfg (s : State) (f : Screen) : (s.setFb f).cfg = s.cfg := rfl
@[simp] theorem State.setFb_inputs (s : State) (f : Screen) : (s.setFb f).inputs = s.inputs := rfl
@[simp] theorem State.setFb_draws (s : State) (f : Screen) : (s.setFb f).draws = s.draws := rfl

/-! ## setMem -/

@[simp] theorem State.setMem_v (s : State) (m : Memory) : (s.setMem m).v = s.v := rfl
@[simp] theorem State.setMem_i (s : State) (m : Memory) : (s.setMem m).i = s.i := rfl
@[simp] theorem State.setMem_pc (s : State) (m : Memory) : (s.setMem m).pc = s.pc := rfl
@[simp] theorem State.setMem_stack (s : State) (m : Memory) : (s.setMem m).stack = s.stack := rfl
@[simp] theorem State.setMem_sp (s : State) (m : Memory) : (s.setMem m).sp = s.sp := rfl
@[simp] theorem State.setMem_dt (s : State) (m : Memory) : (s.setMem m).dt = s.dt := rfl
@[simp] theorem State.setMem_st (s : State) (m : Memory) : (s.setMem m).st = s.st := rfl
@[simp] theorem State.setMem_fb (s : State) (m : Memory) : (s.setMem m).fb = s.fb := rfl
@[simp] theorem State.setMem_mem (s : State) (m : Memory) : (s.setMem m).mem = m := rfl
@[simp] theorem State.setMem_faultCode (s : State) (m : Memory) : (s.setMem m).faultCode = s.faultCode := rfl
@[simp] theorem State.setMem_faultPc (s : State) (m : Memory) : (s.setMem m).faultPc = s.faultPc := rfl
@[simp] theorem State.setMem_faultInfo (s : State) (m : Memory) : (s.setMem m).faultInfo = s.faultInfo := rfl
@[simp] theorem State.setMem_cfg (s : State) (m : Memory) : (s.setMem m).cfg = s.cfg := rfl
@[simp] theorem State.setMem_inputs (s : State) (m : Memory) : (s.setMem m).inputs = s.inputs := rfl
@[simp] theorem State.setMem_draws (s : State) (m : Memory) : (s.setMem m).draws = s.draws := rfl

/-! ## raise -/

@[simp] theorem State.raise_v (s : State) (x : Raised) : (s.raise x).v = s.v := rfl
@[simp] theorem State.raise_i (s : State) (x : Raised) : (s.raise x).i = s.i := rfl
@[simp] theorem State.raise_pc (s : State) (x : Raised) : (s.raise x).pc = s.pc := rfl
@[simp] theorem State.raise_stack (s : State) (x : Raised) : (s.raise x).stack = s.stack := rfl
@[simp] theorem State.raise_sp (s : State) (x : Raised) : (s.raise x).sp = s.sp := rfl
@[simp] theorem State.raise_dt (s : State) (x : Raised) : (s.raise x).dt = s.dt := rfl
@[simp] theorem State.raise_st (s : State) (x : Raised) : (s.raise x).st = s.st := rfl
@[simp] theorem State.raise_fb (s : State) (x : Raised) : (s.raise x).fb = s.fb := rfl
@[simp] theorem State.raise_mem (s : State) (x : Raised) : (s.raise x).mem = s.mem := rfl
@[simp] theorem State.raise_faultCode (s : State) (x : Raised) : (s.raise x).faultCode = x.kind.code := rfl
@[simp] theorem State.raise_faultPc (s : State) (x : Raised) : (s.raise x).faultPc = s.pc := rfl
@[simp] theorem State.raise_faultInfo (s : State) (x : Raised) : (s.raise x).faultInfo = x.info := rfl
@[simp] theorem State.raise_cfg (s : State) (x : Raised) : (s.raise x).cfg = s.cfg := rfl
@[simp] theorem State.raise_inputs (s : State) (x : Raised) : (s.raise x).inputs = s.inputs := rfl
@[simp] theorem State.raise_draws (s : State) (x : Raised) : (s.raise x).draws = s.draws := rfl

/-! ## prologue -/

@[simp] theorem State.prologue_v (s : State) : (s.prologue).v = s.v := rfl
@[simp] theorem State.prologue_i (s : State) : (s.prologue).i = s.i := rfl
@[simp] theorem State.prologue_pc (s : State) : (s.prologue).pc = s.pc + 2 := rfl
@[simp] theorem State.prologue_stack (s : State) : (s.prologue).stack = s.stack := rfl
@[simp] theorem State.prologue_sp (s : State) : (s.prologue).sp = s.sp := rfl
@[simp] theorem State.prologue_dt (s : State) : (s.prologue).dt = tick s.dt := rfl
@[simp] theorem State.prologue_st (s : State) : (s.prologue).st = tick s.st := rfl
@[simp] theorem State.prologue_fb (s : State) : (s.prologue).fb = s.fb := rfl
@[simp] theorem State.prologue_mem (s : State) : (s.prologue).mem = s.mem := rfl
@[simp] theorem State.prologue_faultCode (s : State) : (s.prologue).faultCode = s.faultCode := rfl
@[simp] theorem State.prologue_faultPc (s : State) : (s.prologue).faultPc = s.faultPc := rfl
@[simp] theorem State.prologue_faultInfo (s : State) : (s.prologue).faultInfo = s.faultInfo := rfl
@[simp] theorem State.prologue_cfg (s : State) : (s.prologue).cfg = s.cfg := rfl
@[simp] theorem State.prologue_inputs (s : State) : (s.prologue).inputs = s.inputs := rfl
@[simp] theorem State.prologue_draws (s : State) : (s.prologue).draws = s.draws := rfl

/-! ## takeInput -/

@[simp] theorem State.takeInput_v (s : State) : (s.takeInput).v = s.v := rfl
@[simp] theorem State.takeInput_i (s : State) : (s.takeInput).i = s.i := rfl
@[simp] theorem State.takeInput_pc (s : State) : (s.takeInput).pc = s.pc := rfl
@[simp] theorem State.takeInput_stack (s : State) : (s.takeInput).stack = s.stack := rfl
@[simp] theorem State.takeInput_sp (s : State) : (s.takeInput).sp = s.sp := rfl
@[simp] theorem State.takeInput_dt (s : State) : (s.takeInput).dt = s.dt := rfl
@[simp] theorem State.takeInput_st (s : State) : (s.takeInput).st = s.st := rfl
@[simp] theorem State.takeInput_fb (s : State) : (s.takeInput).fb = s.fb := rfl
@[simp] theorem State.takeInput_mem (s : State) : (s.takeInput).mem = s.mem := rfl
@[simp] theorem State.takeInput_faultCode (s : State) : (s.takeInput).faultCode = s.faultCode := rfl
@[simp] theorem State.takeInput_faultPc (s : State) : (s.takeInput).faultPc = s.faultPc := rfl
@[simp] theorem State.takeInput_faultInfo (s : State) : (s.takeInput).faultInfo = s.faultInfo := rfl
@[simp] theorem State.takeInput_cfg (s : State) : (s.takeInput).cfg = s.cfg := rfl
@[simp] theorem State.takeInput_inputs (s : State) : (s.takeInput).inputs = s.inputs.tail := rfl
@[simp] theorem State.takeInput_draws (s : State) : (s.takeInput).draws = s.draws + 1 := rfl

/-! ## Observers -/

@[simp] theorem State.setReg_byteAt (s : State) (r : Reg) (b : Byte) (a : Nat) : (s.setReg r b).byteAt a = s.byteAt a := rfl
@[simp] theorem State.setReg_pixel (s : State) (r : Reg) (b : Byte) (row : Fin 32) (col : Fin 64) : (s.setReg r b).pixel row col = s.pixel row col := rfl
@[simp] theorem State.setReg_entry (s : State) (r : Reg) (b : Byte) (j : Fin 16) : (s.setReg r b).entry j = s.entry j := rfl
@[simp] theorem State.setReg_input (s : State) (r : Reg) (b : Byte) : (s.setReg r b).input = s.input := rfl
@[simp] theorem State.setReg_unlisted (s : State) (r : Reg) (b : Byte) : (s.setReg r b).unlisted = s.unlisted := rfl
@[simp] theorem State.setReg_halted (s : State) (r : Reg) (b : Byte) : (s.setReg r b).halted = s.halted := rfl
@[simp] theorem State.setI_reg (s : State) (w : Word) (q : Reg) : (s.setI w).reg q = s.reg q := rfl
@[simp] theorem State.setI_byteAt (s : State) (w : Word) (a : Nat) : (s.setI w).byteAt a = s.byteAt a := rfl
@[simp] theorem State.setI_pixel (s : State) (w : Word) (row : Fin 32) (col : Fin 64) : (s.setI w).pixel row col = s.pixel row col := rfl
@[simp] theorem State.setI_entry (s : State) (w : Word) (j : Fin 16) : (s.setI w).entry j = s.entry j := rfl
@[simp] theorem State.setI_input (s : State) (w : Word) : (s.setI w).input = s.input := rfl
@[simp] theorem State.setI_unlisted (s : State) (w : Word) : (s.setI w).unlisted = s.unlisted := rfl
@[simp] theorem State.setI_halted (s : State) (w : Word) : (s.setI w).halted = s.halted := rfl
@[simp] theorem State.setPc_reg (s : State) (w : Word) (q : Reg) : (s.setPc w).reg q = s.reg q := rfl
@[simp] theorem State.setPc_byteAt (s : State) (w : Word) (a : Nat) : (s.setPc w).byteAt a = s.byteAt a := rfl
@[simp] theorem State.setPc_pixel (s : State) (w : Word) (row : Fin 32) (col : Fin 64) : (s.setPc w).pixel row col = s.pixel row col := rfl
@[simp] theorem State.setPc_entry (s : State) (w : Word) (j : Fin 16) : (s.setPc w).entry j = s.entry j := rfl
@[simp] theorem State.setPc_input (s : State) (w : Word) : (s.setPc w).input = s.input := rfl
@[simp] theorem State.setPc_unlisted (s : State) (w : Word) : (s.setPc w).unlisted = s.unlisted := rfl
@[simp] theorem State.setPc_halted (s : State) (w : Word) : (s.setPc w).halted = s.halted := rfl
@[simp] theorem State.setDt_reg (s : State) (b : Byte) (q : Reg) : (s.setDt b).reg q = s.reg q := rfl
@[simp] theorem State.setDt_byteAt (s : State) (b : Byte) (a : Nat) : (s.setDt b).byteAt a = s.byteAt a := rfl
@[simp] theorem State.setDt_pixel (s : State) (b : Byte) (row : Fin 32) (col : Fin 64) : (s.setDt b).pixel row col = s.pixel row col := rfl
@[simp] theorem State.setDt_entry (s : State) (b : Byte) (j : Fin 16) : (s.setDt b).entry j = s.entry j := rfl
@[simp] theorem State.setDt_input (s : State) (b : Byte) : (s.setDt b).input = s.input := rfl
@[simp] theorem State.setDt_unlisted (s : State) (b : Byte) : (s.setDt b).unlisted = s.unlisted := rfl
@[simp] theorem State.setDt_halted (s : State) (b : Byte) : (s.setDt b).halted = s.halted := rfl
@[simp] theorem State.setSt_reg (s : State) (b : Byte) (q : Reg) : (s.setSt b).reg q = s.reg q := rfl
@[simp] theorem State.setSt_byteAt (s : State) (b : Byte) (a : Nat) : (s.setSt b).byteAt a = s.byteAt a := rfl
@[simp] theorem State.setSt_pixel (s : State) (b : Byte) (row : Fin 32) (col : Fin 64) : (s.setSt b).pixel row col = s.pixel row col := rfl
@[simp] theorem State.setSt_entry (s : State) (b : Byte) (j : Fin 16) : (s.setSt b).entry j = s.entry j := rfl
@[simp] theorem State.setSt_input (s : State) (b : Byte) : (s.setSt b).input = s.input := rfl
@[simp] theorem State.setSt_unlisted (s : State) (b : Byte) : (s.setSt b).unlisted = s.unlisted := rfl
@[simp] theorem State.setSt_halted (s : State) (b : Byte) : (s.setSt b).halted = s.halted := rfl
@[simp] theorem State.setFb_reg (s : State) (f : Screen) (q : Reg) : (s.setFb f).reg q = s.reg q := rfl
@[simp] theorem State.setFb_byteAt (s : State) (f : Screen) (a : Nat) : (s.setFb f).byteAt a = s.byteAt a := rfl
@[simp] theorem State.setFb_entry (s : State) (f : Screen) (j : Fin 16) : (s.setFb f).entry j = s.entry j := rfl
@[simp] theorem State.setFb_input (s : State) (f : Screen) : (s.setFb f).input = s.input := rfl
@[simp] theorem State.setFb_unlisted (s : State) (f : Screen) : (s.setFb f).unlisted = s.unlisted := rfl
@[simp] theorem State.setFb_halted (s : State) (f : Screen) : (s.setFb f).halted = s.halted := rfl
@[simp] theorem State.setMem_reg (s : State) (m : Memory) (q : Reg) : (s.setMem m).reg q = s.reg q := rfl
@[simp] theorem State.setMem_pixel (s : State) (m : Memory) (row : Fin 32) (col : Fin 64) : (s.setMem m).pixel row col = s.pixel row col := rfl
@[simp] theorem State.setMem_entry (s : State) (m : Memory) (j : Fin 16) : (s.setMem m).entry j = s.entry j := rfl
@[simp] theorem State.setMem_input (s : State) (m : Memory) : (s.setMem m).input = s.input := rfl
@[simp] theorem State.setMem_unlisted (s : State) (m : Memory) : (s.setMem m).unlisted = s.unlisted := rfl
@[simp] theorem State.setMem_halted (s : State) (m : Memory) : (s.setMem m).halted = s.halted := rfl
@[simp] theorem State.raise_reg (s : State) (x : Raised) (q : Reg) : (s.raise x).reg q = s.reg q := rfl
@[simp] theorem State.raise_byteAt (s : State) (x : Raised) (a : Nat) : (s.raise x).byteAt a = s.byteAt a := rfl
@[simp] theorem State.raise_pixel (s : State) (x : Raised) (row : Fin 32) (col : Fin 64) : (s.raise x).pixel row col = s.pixel row col := rfl
@[simp] theorem State.raise_entry (s : State) (x : Raised) (j : Fin 16) : (s.raise x).entry j = s.entry j := rfl
@[simp] theorem State.raise_input (s : State) (x : Raised) : (s.raise x).input = s.input := rfl
@[simp] theorem State.raise_unlisted (s : State) (x : Raised) : (s.raise x).unlisted = s.unlisted := rfl
@[simp] theorem State.prologue_reg (s : State) (q : Reg) : (s.prologue).reg q = s.reg q := rfl
@[simp] theorem State.prologue_byteAt (s : State) (a : Nat) : (s.prologue).byteAt a = s.byteAt a := rfl
@[simp] theorem State.prologue_pixel (s : State) (row : Fin 32) (col : Fin 64) : (s.prologue).pixel row col = s.pixel row col := rfl
@[simp] theorem State.prologue_entry (s : State) (j : Fin 16) : (s.prologue).entry j = s.entry j := rfl
@[simp] theorem State.prologue_input (s : State) : (s.prologue).input = s.input := rfl
@[simp] theorem State.prologue_unlisted (s : State) : (s.prologue).unlisted = s.unlisted := rfl
@[simp] theorem State.prologue_halted (s : State) : (s.prologue).halted = s.halted := rfl
@[simp] theorem State.takeInput_reg (s : State) (q : Reg) : (s.takeInput).reg q = s.reg q := rfl
@[simp] theorem State.takeInput_byteAt (s : State) (a : Nat) : (s.takeInput).byteAt a = s.byteAt a := rfl
@[simp] theorem State.takeInput_pixel (s : State) (row : Fin 32) (col : Fin 64) : (s.takeInput).pixel row col = s.pixel row col := rfl
@[simp] theorem State.takeInput_entry (s : State) (j : Fin 16) : (s.takeInput).entry j = s.entry j := rfl
@[simp] theorem State.takeInput_unlisted (s : State) : (s.takeInput).unlisted = s.unlisted := rfl
@[simp] theorem State.takeInput_halted (s : State) : (s.takeInput).halted = s.halted := rfl

/-- A register write is read back, and leaves every other register (rule R19). -/
theorem State.setReg_reg (s : State) (r : Reg) (b : Byte) (q : Reg) : (s.setReg r b).reg q = if q = r then b else s.reg q := by
  simp only [State.setReg, State.reg, Fin.getElem_fin, Vector.getElem_set, Fin.ext_iff, eq_comm]

@[simp] theorem State.setReg_reg_self (s : State) (r : Reg) (b : Byte) : (s.setReg r b).reg r = b := by
  simp [State.setReg_reg]

theorem State.setReg_reg_ne (s : State) {r q : Reg} (b : Byte) (h : q ≠ r) : (s.setReg r b).reg q = s.reg q := by
  simp [State.setReg_reg, h]

@[simp] theorem State.setFb_pixel (s : State) (f : Screen) (row : Fin 32) (col : Fin 64) : (s.setFb f).pixel row col = f[row][col] := rfl

@[simp] theorem State.setMem_byteAt (s : State) (m : Memory) (a : Nat) :
    (s.setMem m).byteAt a = Memory.read s.unlisted m a := rfl

/-- A timer's tick, as a number: down by one and not below 0 (rule R91). -/
@[simp] theorem tick_toNat (t : Byte) : (tick t).toNat = t.toNat - 1 := by
  unfold tick
  split
  · rename_i h
    subst h
    rfl
  · rename_i h
    have h1 : t.toNat ≠ 0 := fun e => h (BitVec.eq_of_toNat_eq (by simpa using e))
    have h2 : t.toNat < 256 := t.isLt
    have h3 : (1 : Byte).toNat = 1 := rfl
    rw [BitVec.toNat_sub, h3]
    omega

/-- A raise halts the core: no fault has code 0 (rule R143). -/
@[simp] theorem State.raise_halted (s : State) (r : Raised) : (s.raise r).halted = true := by
  cases r with | mk k w => cases k <;> rfl

end Sys2Proof.Machine
end

