-- ==== Sys2Proof/Laws/Memory.lean ====
section
/-! SUPPORT. Memory: a read after a write to the same address gives the byte written, a write leaves every other address alone,
and every memory operation keeps the canonical form. -/

namespace Sys2Proof.Machine

variable (d : Nat → Byte)

theorem Memory.read_without (m : Memory) (a q : Nat) :
    Memory.read d (Memory.without m a) q = if q = a then d a else Memory.read d m q := by
  induction m with
  | nil => simp only [Memory.without, List.filter_nil, Memory.read]; split <;> simp_all
  | cons c m ih =>
    rw [Memory.without] at ih ⊢
    by_cases h : c.1 = a
    · simp only [List.filter_cons, h, bne_self_eq_false, Bool.false_eq_true, if_false, ih, Memory.read]
      split <;> simp_all
    · simp only [List.filter_cons, bne_iff_ne, ne_eq, h, not_false_eq_true, if_true, Memory.read, ih]
      split
      · rename_i hq; simp [hq, h]
      · rfl

theorem Memory.read_place (m : Memory) (a q : Nat) (v : Byte) (h : ∀ c ∈ m, c.1 ≠ a) :
    Memory.read d (Memory.place m a v) q = if q = a then v else Memory.read d m q := by
  induction m with
  | nil => simp [Memory.place, Memory.read]
  | cons c m ih =>
    have hc : c.1 ≠ a := h c (by simp)
    have ih := ih (fun e he => h e (by simp [he]))
    unfold Memory.place
    split
    · simp [Memory.read]
    · simp only [Memory.read, ih]
      split
      · rename_i hq; simp [hq, hc]
      · rfl

theorem Memory.without_ne (m : Memory) (a : Nat) : ∀ c ∈ Memory.without m a, c.1 ≠ a := by
  simp [Memory.without]

/-- The one law of a write: the address written reads as the byte, every other address as before. -/
theorem Memory.read_write (m : Memory) (a q : Nat) (v : Byte) :
    Memory.read d (Memory.write d m a v) q = if q = a then v else Memory.read d m q := by
  unfold Memory.write
  split
  · rename_i h; rw [Memory.read_without, h]
  · rw [Memory.read_place d _ a q v (Memory.without_ne m a), Memory.read_without]
    split <;> simp_all

theorem Memory.wf_without {m : Memory} (h : Memory.wf d m) (a : Nat) : Memory.wf d (Memory.without m a) :=
  ⟨h.1.filter _, fun c hc => h.2 c (List.mem_filter.mp hc).1⟩

theorem Memory.mem_place {m : Memory} {a : Nat} {v : Byte} {c : Host.Cell} (h : c ∈ Memory.place m a v) :
    c = (a, v) ∨ c ∈ m := by
  induction m with
  | nil => simpa [Memory.place] using h
  | cons e m ih =>
    unfold Memory.place at h
    split at h
    · simpa using h
    · rcases List.mem_cons.mp h with h | h
      · simp [h]
      · rcases ih h with h | h <;> simp [h]

theorem Memory.wf_place {m : Memory} (h : Memory.wf d m) {a : Nat} {v : Byte} (ha : a < memSize) (hv : v ≠ d a)
    (hn : ∀ c ∈ m, c.1 ≠ a) : Memory.wf d (Memory.place m a v) := by
  refine ⟨?_, fun c hc => ?_⟩
  · obtain ⟨hp, -⟩ := h
    induction m with
    | nil => simp [Memory.place]
    | cons e m ih =>
      have he : e.1 ≠ a := hn e (by simp)
      obtain ⟨hm, hp⟩ := List.pairwise_cons.mp hp
      unfold Memory.place
      split
      · rename_i hlt
        refine List.pairwise_cons.mpr ⟨fun c hc => ?_, List.pairwise_cons.mpr ⟨hm, hp⟩⟩
        rcases List.mem_cons.mp hc with rfl | hc
        · exact hlt
        · exact Nat.lt_trans hlt (hm c hc)
      · rename_i hlt
        refine List.pairwise_cons.mpr ⟨fun c hc => ?_, ih (fun c hc => hn c (by simp [hc])) hp⟩
        rcases Memory.mem_place hc with rfl | hc
        · simp only; omega
        · exact hm c hc
  · rcases Memory.mem_place hc with rfl | hc
    · exact ⟨ha, hv⟩
    · exact h.2 c hc

/-- A write below 4096 keeps the canonical form. -/
theorem Memory.wf_write {m : Memory} (h : Memory.wf d m) {a : Nat} (ha : a < memSize) (v : Byte) :
    Memory.wf d (Memory.write d m a v) := by
  unfold Memory.write
  split
  · exact Memory.wf_without d h a
  · rename_i hv
    exact Memory.wf_place d (Memory.wf_without d h a) ha hv (Memory.without_ne m a)

/-- Writing a block: an address inside reads as its byte, every other address as before. -/
theorem Memory.read_writeAll (bs : List Byte) : ∀ (m : Memory) (a q : Nat),
    Memory.read d (Memory.writeAll d m a bs) q =
      if a ≤ q ∧ q < a + bs.length then bs.getD (q - a) 0 else Memory.read d m q := by
  induction bs with
  | nil => intro m a q; simp [Memory.writeAll]; try omega
  | cons b bs ih =>
    intro m a q
    simp only [Memory.writeAll, ih, Memory.read_write, List.length_cons]
    by_cases h1 : q = a
    · subst h1; simp
    · by_cases h2 : a + 1 ≤ q ∧ q < a + 1 + bs.length
      · have h3 : a ≤ q ∧ q < a + (bs.length + 1) := by omega
        have h4 : q - a = (q - (a + 1)) + 1 := by omega
        rw [if_pos h2, if_pos h3, h4, List.getD_cons_succ]
      · have h3 : ¬(a ≤ q ∧ q < a + (bs.length + 1)) := by omega
        rw [if_neg h2, if_neg h3, if_neg h1]

/-- Writing a block that lies below 4096 keeps the canonical form. -/
theorem Memory.wf_writeAll (bs : List Byte) : ∀ {m : Memory} (_ : Memory.wf d m) {a : Nat} (_ : a + bs.length ≤ memSize),
    Memory.wf d (Memory.writeAll d m a bs) := by
  induction bs with
  | nil => intro m h a _; exact h
  | cons b bs ih =>
    intro m h a ha
    rw [List.length_cons] at ha
    exact ih (Memory.wf_write d h (by omega) b) (by omega)

end Sys2Proof.Machine
end

