-- ==== Sys2Proof/Laws/Ops.lean ====
section
/-! SUPPORT. For each shared operation, once, everything it can do. Later proofs cite these and do not unfold the operation. -/

namespace Sys2Proof.Machine

/-! ## The cycle's frame -/

/-- COMMIT OR FAULT: an instruction answers a next state, which is what its body made of the advanced and ticked state, or the state
before the cycle with the fault recorded. -/
theorem runBody_next {body : State → Except Raised State} {s t : State} (h : runBody body s = .next t) :
    body s.prologue = .ok t ∨ ∃ r, body s.prologue = .error r ∧ t = s.raise r := by
  unfold runBody at h
  split at h
  · rename_i u hu
    exact .inl (by rw [hu, Host.Outcome.next.inj h])
  · rename_i r hr
    exact .inr ⟨r, hr, (Host.Outcome.next.inj h).symm⟩

theorem runBody_ok {body : State → Except Raised State} {s t : State} (h : body s.prologue = .ok t) :
    runBody body s = .next t := by simp [runBody, h]

theorem runBody_error {body : State → Except Raised State} {s : State} {r : Raised} (h : body s.prologue = .error r) :
    runBody body s = .next (s.raise r) := by simp [runBody, h]

/-- An instruction always answers a next state. -/
theorem runBody_answers (body : State → Except Raised State) (s : State) : ∃ t, runBody body s = .next t := by
  unfold runBody; split <;> exact ⟨_, rfl⟩

/-! ## Memory accesses -/

theorem State.memRead_ok {s : State} {a : Nat} (h : a < memSize) : s.memRead a = .ok (s.byteAt a) := by
  simp [State.memRead, Nat.not_le.mpr h]

theorem State.memRead_error {s : State} {a : Nat} (h : memSize ≤ a) :
    s.memRead a = .error ⟨.readRange, BitVec.ofNat 16 a⟩ := by
  simp [State.memRead, h]

theorem State.memWrite_ok {s : State} {a : Nat} {b : Byte} (h : a < memSize) (hl : progBase ≤ a ∨ s.cfg.lowWrite = .allow) :
    s.memWrite a b = .ok (s.setMem (Memory.write s.unlisted s.mem a b)) := by
  have h1 : ¬(a < progBase ∧ s.cfg.lowWrite = .fault) := by
    rcases hl with hl | hl
    · exact fun e => absurd e.1 (Nat.not_lt.mpr hl)
    · simp [hl]
  simp [State.memWrite, Nat.not_le.mpr h, h1]

theorem State.memWrite_range {s : State} {a : Nat} {b : Byte} (h : memSize ≤ a) :
    s.memWrite a b = .error ⟨.writeRange, BitVec.ofNat 16 a⟩ := by
  simp [State.memWrite, h]

theorem State.memWrite_low {s : State} {a : Nat} {b : Byte} (h : a < progBase) (hl : s.cfg.lowWrite = .fault) :
    s.memWrite a b = .error ⟨.lowWrite, BitVec.ofNat 16 a⟩ := by
  have h1 : ¬memSize ≤ a := by simp only [memSize, progBase] at *; omega
  simp [State.memWrite, h1, h, hl]

/-- A block read that lies in memory gives its bytes in order. -/
theorem State.readBytes_ok {s : State} : ∀ {n a : Nat}, n = 0 ∨ a + n ≤ memSize →
    s.readBytes a n = .ok ((List.range n).map (fun k => s.byteAt (a + k)))
  | 0, a, _ => rfl
  | n + 1, a, h => by
    have h' : a + (n + 1) ≤ memSize := h.resolve_left (Nat.succ_ne_zero n)
    rw [State.readBytes, State.memRead_ok (by omega), State.readBytes_ok (n := n) (a := a + 1) (.inr (by omega))]
    simp only [List.range_succ_eq_map, List.map_cons, List.map_map, Nat.add_zero, Function.comp_def, Nat.succ_eq_add_one]
    congr 2
    exact List.map_congr_left (fun k _ => by rw [Nat.add_assoc, Nat.add_comm 1 k])

/-- A block read that leaves memory faults at its first address of 0x1000 or above (rule R143). -/
theorem State.readBytes_error {s : State} : ∀ {n a : Nat}, 0 < n → memSize < a + n →
    s.readBytes a n = .error ⟨.readRange, BitVec.ofNat 16 (max a memSize)⟩
  | n + 1, a, _, h => by
    by_cases ha : memSize ≤ a
    · rw [State.readBytes, State.memRead_error ha, Nat.max_eq_left ha]
    · have hn : 0 < n := by omega
      rw [State.readBytes, State.memRead_ok (by omega), State.readBytes_error hn (a := a + 1) (by omega),
        Nat.max_eq_right (by omega), Nat.max_eq_right (by omega)]

/-- The two outcomes of a block read. -/
theorem State.readBytes_cases (s : State) (a n : Nat) :
    (n = 0 ∨ a + n ≤ memSize) ∧ s.readBytes a n = .ok ((List.range n).map (fun k => s.byteAt (a + k))) ∨
    (0 < n ∧ memSize < a + n) ∧ s.readBytes a n = .error ⟨.readRange, BitVec.ofNat 16 (max a memSize)⟩ := by
  by_cases h : n = 0 ∨ a + n ≤ memSize
  · exact .inl ⟨h, State.readBytes_ok h⟩
  · have h' : 0 < n ∧ memSize < a + n := by omega
    exact .inr ⟨h', State.readBytes_error h'.1 h'.2⟩

/-- A block write that lies in memory, at addresses a program may write, is the block write of memory. -/
theorem State.writeBytes_ok : ∀ {bs : List Byte} {s : State} {a : Nat}, bs = [] ∨ a + bs.length ≤ memSize →
    progBase ≤ a ∨ s.cfg.lowWrite = .allow → s.writeBytes a bs = .ok (s.setMem (Memory.writeAll s.unlisted s.mem a bs))
  | [], s, a, _, _ => rfl
  | b :: bs, s, a, h, hl => by
    have h' : a + (bs.length + 1) ≤ memSize := by simpa using h
    rw [State.writeBytes, State.memWrite_ok (by omega) hl]
    simp only
    rw [State.writeBytes_ok (.inr (by omega)) (by rcases hl with hl | hl; · exact .inl (by omega)
                                                  · exact .inr hl)]
    rfl

/-- A block write that leaves memory faults at its first address of 0x1000 or above, and nothing of it is kept. -/
theorem State.writeBytes_range : ∀ {bs : List Byte} {s : State} {a : Nat}, bs ≠ [] → memSize < a + bs.length →
    progBase ≤ a ∨ s.cfg.lowWrite = .allow → s.writeBytes a bs = .error ⟨.writeRange, BitVec.ofNat 16 (max a memSize)⟩
  | b :: bs, s, a, _, h, hl => by
    rw [List.length_cons] at h
    by_cases ha : memSize ≤ a
    · rw [State.writeBytes, State.memWrite_range ha, Nat.max_eq_left ha]
    · have hn : bs ≠ [] := by intro e; simp [e] at h; omega
      rw [State.writeBytes, State.memWrite_ok (by omega) hl]
      simp only
      rw [State.writeBytes_range hn (by omega) (by rcases hl with hl | hl; · exact .inl (by omega)
                                                   · exact .inr hl), Nat.max_eq_right (by omega), Nat.max_eq_right (by omega)]

/-- A block write below 0x200 faults at its first address under `LOW_WRITE_POLICY = FAULT` (rule R58). -/
theorem State.writeBytes_low {bs : List Byte} {s : State} {a : Nat} (hb : bs ≠ []) (ha : a < progBase)
    (hl : s.cfg.lowWrite = .fault) : s.writeBytes a bs = .error ⟨.lowWrite, BitVec.ofNat 16 a⟩ := by
  cases bs with
  | nil => exact absurd rfl hb
  | cons b bs => rw [State.writeBytes, State.memWrite_low ha hl]

/-- The three outcomes of a block write. -/
theorem State.writeBytes_cases (s : State) (a : Nat) {bs : List Byte} (hb : bs ≠ []) :
    (a + bs.length ≤ memSize ∧ (progBase ≤ a ∨ s.cfg.lowWrite = .allow)) ∧
        s.writeBytes a bs = .ok (s.setMem (Memory.writeAll s.unlisted s.mem a bs)) ∨
    (memSize < a + bs.length ∧ (progBase ≤ a ∨ s.cfg.lowWrite = .allow)) ∧
        s.writeBytes a bs = .error ⟨.writeRange, BitVec.ofNat 16 (max a memSize)⟩ ∨
    (a < progBase ∧ s.cfg.lowWrite = .fault) ∧ s.writeBytes a bs = .error ⟨.lowWrite, BitVec.ofNat 16 a⟩ := by
  by_cases hl : progBase ≤ a ∨ s.cfg.lowWrite = .allow
  · by_cases h : a + bs.length ≤ memSize
    · exact .inl ⟨⟨h, hl⟩, State.writeBytes_ok (.inr h) hl⟩
    · exact .inr (.inl ⟨⟨by omega, hl⟩, State.writeBytes_range hb (by omega) hl⟩)
  · have h1 : a < progBase := Nat.lt_of_not_le (fun e => hl (.inl e))
    have h2 : s.cfg.lowWrite = .fault := by
      cases hp : s.cfg.lowWrite with
      | fault => rfl
      | allow => exact absurd (.inr hp) hl
    exact .inr (.inr ⟨⟨h1, h2⟩, State.writeBytes_low hb h1 h2⟩)

/-! ## Register blocks -/

/-- A block of register writes from register k changes only the register file. -/
theorem State.setRegs_eq : ∀ (bs : List Byte) (s : State) (k : Nat), ∃ v, s.setRegs k bs = { s with v := v }
  | [], s, _ => ⟨s.v, rfl⟩
  | b :: bs, s, k => by
    obtain ⟨v, hv⟩ := State.setRegs_eq bs (s.setReg (Fin.ofNat 16 k) b) (k + 1)
    exact ⟨v, by rw [State.setRegs, hv]; rfl⟩

/-- A block of register writes that fits gives register k + j its byte j, and leaves the others. -/
theorem State.setRegs_reg : ∀ (bs : List Byte) (s : State) (k : Nat), k + bs.length ≤ 16 → ∀ q : Reg,
    (s.setRegs k bs).reg q = if k ≤ q.val ∧ q.val < k + bs.length then bs.getD (q.val - k) 0 else s.reg q
  | [], s, k, _, q => by
    have h : ¬(k ≤ q.val ∧ q.val < k + 0) := by omega
    simp only [State.setRegs, List.length_nil, if_neg h]
  | b :: bs, s, k, hk, q => by
    rw [List.length_cons] at hk
    have hkv : (Fin.ofNat 16 k).val = k := Nat.mod_eq_of_lt (by omega)
    rw [State.setRegs, State.setRegs_reg bs _ (k + 1) (by omega) q, State.setReg_reg, List.length_cons]
    by_cases h1 : q.val = k
    · have hq : q = Fin.ofNat 16 k := Fin.ext (by omega)
      have h2 : ¬(k + 1 ≤ q.val ∧ q.val < k + 1 + bs.length) := by omega
      have h3 : k ≤ q.val ∧ q.val < k + (bs.length + 1) := by omega
      rw [if_neg h2, if_pos hq, if_pos h3, h1, Nat.sub_self]
      rfl
    · have hq : q ≠ Fin.ofNat 16 k := fun e => h1 (by rw [e, hkv])
      by_cases h2 : k + 1 ≤ q.val ∧ q.val < k + 1 + bs.length
      · have h3 : k ≤ q.val ∧ q.val < k + (bs.length + 1) := by omega
        have h4 : q.val - k = (q.val - (k + 1)) + 1 := by omega
        rw [if_pos h2, if_pos h3, h4, List.getD_cons_succ]
      · have h3 : ¬(k ≤ q.val ∧ q.val < k + (bs.length + 1)) := by omega
        rw [if_neg h2, if_neg h3, if_neg hq]

@[simp] theorem State.regBlock_length (s : State) (x : Reg) : (s.regBlock x).length = x.val + 1 := by
  have := x.isLt
  simp only [State.regBlock, List.length_take, Vector.length_toList]; omega

/-- The k-th byte of the block V0 to Vx is register k. -/
theorem State.regBlock_getD (s : State) (x q : Reg) (h : q.val ≤ x.val) : (s.regBlock x).getD q.val 0 = s.reg q := by
  have := q.isLt
  simp [State.regBlock, State.reg, List.getD, Nat.lt_succ_of_le h]

/-! ## The return stack -/

theorem State.push_ok {s : State} {w : Word} {r : Raised} (h : s.sp.val < 16) :
    s.push w r = .ok { s with stack := s.stack.set s.sp.val w, sp := ⟨s.sp.val + 1, Nat.succ_lt_succ h⟩ } := by
  simp [State.push, h]

theorem State.push_full {s : State} {w : Word} {r : Raised} (h : s.sp.val = 16) : s.push w r = .error r := by
  simp [State.push, h]

/-- The two outcomes of a push. -/
theorem State.push_cases (s : State) (w : Word) (r : Raised) :
    (∃ h : s.sp.val < 16, s.push w r =
        .ok { s with stack := s.stack.set s.sp.val w, sp := ⟨s.sp.val + 1, Nat.succ_lt_succ h⟩ }) ∨
    s.sp.val = 16 ∧ s.push w r = .error r := by
  by_cases h : s.sp.val < 16
  · exact .inl ⟨h, State.push_ok h⟩
  · have h' : s.sp.val = 16 := by have := s.sp.isLt; omega
    exact .inr ⟨h', State.push_full h'⟩

/-- The two outcomes of a pop. -/
theorem State.pop_cases (s : State) (r : Raised) :
    (∃ (j : Fin 16) (h : j.val < 17), s.sp.val = j.val + 1 ∧ s.pop r = .ok { s with sp := ⟨j.val, h⟩, pc := s.entry j }) ∨
    s.sp.val = 0 ∧ s.pop r = .error r := by
  rcases hs : s.sp with ⟨_ | n, h⟩
  · exact .inr ⟨rfl, by unfold State.pop; split <;> simp_all⟩
  · refine .inl ⟨⟨n, Nat.lt_of_succ_lt_succ h⟩, by omega, rfl, ?_⟩
    unfold State.pop
    split
    · rename_i e; simp [hs] at e
    · rename_i m hm e
      have : m = n := by rw [hs] at e; simpa using e.symm
      subst this
      rfl

/-- A return address on the stack is the one pushed, or the one that stood there. -/
theorem entry_set (v : Vector Word 16) (k : Nat) (hk : k < 16) (w : Word) (j : Fin 16) :
    (v.set k w hk)[j] = if j.val = k then w else v[j] := by
  simp only [Fin.getElem_fin, Vector.getElem_set, eq_comm]

/-! ## Operands -/

@[simp] theorem addrOperand_toNat (nnn : Addr12) : (addrOperand nnn).toNat = nnn.toNat := by
  have := nnn.isLt
  simp [addrOperand, BitVec.toNat_setWidth]; omega

@[simp] theorem zext16_toNat (b : Byte) : (zext16 b).toNat = b.toNat := by
  have := b.isLt
  simp [zext16, BitVec.toNat_setWidth]; omega

@[simp] theorem glyphAddress_toNat (b : Byte) : (glyphAddress b).toNat = b.toNat * 5 := by
  have := b.isLt
  simp [glyphAddress]; omega

@[simp] theorem State.skipIf_pc (s : State) (c : Bool) : (s.skipIf c).pc = if c then s.pc + 2 else s.pc := rfl

/-- The lowest key down is the least set bit of the sample; there is none when the sample is 0 (rule R138). -/
theorem lowestDown_spec (keys : BitVec 16) :
    (lowestDown keys = none ∧ keys = 0) ∨
    ∃ k : Fin 16, lowestDown keys = some k ∧ keys.getLsbD k.val = true ∧ ∀ j : Fin 16, j < k → keys.getLsbD j.val = false := by
  rcases h : lowestDown keys with _ | k
  · left
    refine ⟨rfl, BitVec.eq_of_getLsbD_eq (fun i hi => ?_)⟩
    have := (List.find?_eq_none.mp h) ⟨i, hi⟩ (List.mem_finRange _)
    simpa using this
  · right
    obtain ⟨hk, as, bs, he, hall⟩ := List.find?_eq_some_iff_append.mp h
    refine ⟨k, rfl, by simpa using hk, fun j hj => ?_⟩
    have hjm : j ∈ as := by
      have hm : j ∈ as ++ k :: bs := he ▸ List.mem_finRange j
      rcases List.mem_append.mp hm with hm | hm
      · exact hm
      · exfalso
        have hp : (as ++ k :: bs).Pairwise (· < ·) := by
          rw [← he]; exact List.pairwise_lt_finRange 16
        have hp2 := (List.pairwise_append.mp hp).2.1
        rcases List.mem_cons.mp hm with rfl | hm
        · exact absurd hj (lt_irrefl _)
        · exact absurd hj (not_lt.mpr (le_of_lt ((List.pairwise_cons.mp hp2).1 j hm)))
    simpa using hall j hjm

/-- The four outcomes of a key test (rule R134). -/
theorem State.keyDown_cases (s : State) (v : Byte) :
    (v.toNat ≤ 15 ∧ s.keyDown v = .ok (s.input.keys.getLsbD v.toNat)) ∨
    (15 < v.toNat ∧ s.cfg.keyRange = .fault ∧ s.keyDown v = .error ⟨.keyRange, zext16 v⟩) ∨
    (15 < v.toNat ∧ s.cfg.keyRange = .lowNibble ∧ s.keyDown v = .ok (s.input.keys.getLsbD (v.toNat % 16))) ∨
    (15 < v.toNat ∧ s.cfg.keyRange = .notDown ∧ s.keyDown v = .ok false) := by
  by_cases h : v.toNat ≤ 15
  · exact .inl ⟨h, by simp [State.keyDown, h]⟩
  · have h' : 15 < v.toNat := by omega
    rcases hp : s.cfg.keyRange with _ | _ | _
    · exact .inr (.inl ⟨h', rfl, by simp [State.keyDown, h, hp]⟩)
    · exact .inr (.inr (.inl ⟨h', rfl, by simp [State.keyDown, h, hp]⟩))
    · exact .inr (.inr (.inr ⟨h', rfl, by simp [State.keyDown, h, hp]⟩))

/-! ## Fetch -/

theorem State.fetch_ok {s : State} (h : s.pc.toNat < 0xFFF) :
    s.fetch = .ok (wordOfBytes (s.byteAt s.pc.toNat) (s.byteAt (s.pc.toNat + 1))) := by
  simp [State.fetch, Nat.not_le.mpr h]

theorem State.fetch_error {s : State} (h : 0xFFF ≤ s.pc.toNat) :
    s.fetch = .error ⟨.fetchRange, if s.pc.toNat ≥ 0x1000 then s.pc else 0x1000⟩ := by
  simp [State.fetch, h]

theorem wordOfBytes_toNat (hi lo : Byte) : (wordOfBytes hi lo).toNat = hi.toNat * 256 + lo.toNat := by
  rw [wordOfBytes, BitVec.toNat_append hi lo, ← Nat.shiftLeft_add_eq_or_of_lt lo.isLt, Nat.shiftLeft_eq]

end Sys2Proof.Machine
end

