-- ==== Sys2Proof/Laws/Display.lean ====
section
/-! SUPPORT. What drawing does to the buffer, pixel by pixel: an operation toggles a set of pixels and reports whether one of them was
on; operations with disjoint sets compose, so the order of the loops of Dxyn does not matter (rule R130). -/

namespace Sys2Proof.Machine

/-- `f` inverts exactly the pixels of `T`, and adds to the collision flag whether one of them was on. -/
def Toggles (f : Screen × Bool → Screen × Bool) (T : Fin 32 → Fin 64 → Prop) : Prop :=
  ∀ p, (∀ (r : Fin 32) (c : Fin 64), (T r c → (f p).1[r][c] = !p.1[r][c]) ∧ (¬T r c → (f p).1[r][c] = p.1[r][c])) ∧
    ((f p).2 = true ↔ p.2 = true ∨ ∃ (r : Fin 32) (c : Fin 64), T r c ∧ p.1[r][c] = true)

theorem toggles_id : Toggles id (fun _ _ => False) := fun p => by simp

theorem Toggles.comp {f g : Screen × Bool → Screen × Bool} {T U : Fin 32 → Fin 64 → Prop} (hf : Toggles f T) (hg : Toggles g U)
    (hd : ∀ r c, T r c → ¬U r c) : Toggles (fun p => g (f p)) (fun r c => T r c ∨ U r c) := fun p => by
  refine ⟨fun r c => ⟨fun h => ?_, fun h => ?_⟩, ?_⟩
  · rcases h with h | h
    · rw [((hg (f p)).1 r c).2 (hd r c h), ((hf p).1 r c).1 h]
    · rw [((hg (f p)).1 r c).1 h, ((hf p).1 r c).2 (fun e => hd r c e h)]
  · rw [((hg (f p)).1 r c).2 (fun e => h (.inr e)), ((hf p).1 r c).2 (fun e => h (.inl e))]
  · rw [(hg (f p)).2, (hf p).2]
    constructor
    · rintro ((h | ⟨r, c, h, hp⟩) | ⟨r, c, h, hp⟩)
      · exact .inl h
      · exact .inr ⟨r, c, .inl h, hp⟩
      · rw [((hf p).1 r c).2 (fun e => hd r c e h)] at hp
        exact .inr ⟨r, c, .inr h, hp⟩
    · rintro (h | ⟨r, c, h | h, hp⟩)
      · exact .inl (.inl h)
      · exact .inl (.inr ⟨r, c, h, hp⟩)
      · refine .inr ⟨r, c, h, ?_⟩
        rw [((hf p).1 r c).2 (fun e => hd r c e h)]
        exact hp

theorem Toggles.congr {f : Screen × Bool → Screen × Bool} {T U : Fin 32 → Fin 64 → Prop} (h : Toggles f T)
    (hTU : ∀ r c, T r c ↔ U r c) : Toggles f U := by
  have : T = U := funext fun r => funext fun c => propext (hTU r c)
  exact this ▸ h

/-- Plotting at row r, column c inverts that pixel, and drops a position outside the buffer (rule R131). -/
theorem toggles_plot (r c : Nat) : Toggles (Screen.plot r c) (fun y x => y.val = r ∧ x.val = c) := fun p => by
  unfold Screen.plot
  split
  · rename_i h
    refine ⟨fun y x => ⟨fun e => ?_, fun e => ?_⟩, ?_⟩
    · obtain ⟨hy, hx⟩ := e
      subst hy hx
      simp
    · simp only [Fin.getElem_fin, Vector.getElem_set]
      by_cases hy : r = y.val
      · subst hy
        have hx : ¬c = x.val := fun e' => e ⟨rfl, e'.symm⟩
        simp [hx]
      · simp [hy]
    · simp only [Bool.or_eq_true]
      constructor
      · rintro (h1 | h1)
        · exact .inl h1
        · exact .inr ⟨⟨r, h.1⟩, ⟨c, h.2⟩, ⟨rfl, rfl⟩, h1⟩
      · rintro (h1 | ⟨y, x, ⟨hy, hx⟩, h1⟩)
        · exact .inl h1
        · subst hy hx
          exact .inr h1
  · rename_i h
    refine ⟨fun y x => ⟨fun e => ?_, fun _ => rfl⟩, ⟨fun e => .inl e, fun e => ?_⟩⟩
    · exact absurd ⟨e.1 ▸ y.isLt, e.2 ▸ x.isLt⟩ h
    · rcases e with e | ⟨y, x, e, -⟩
      · exact e
      · exact absurd ⟨e.1 ▸ y.isLt, e.2 ▸ x.isLt⟩ h

theorem toggles_foldl (r cx : Nat) (byte : Byte) : ∀ (bs : List Nat), bs.Nodup →
    Toggles (fun p => bs.foldl (fun p b => if byte.getLsbD (7 - b) then Screen.plot r (cx + b) p else p) p)
      (fun y x => ∃ b ∈ bs, y.val = r ∧ x.val = cx + b ∧ byte.getLsbD (7 - b) = true)
  | [], _ => toggles_id.congr (fun r c => by simp)
  | b :: bs, hn => by
    obtain ⟨hb, hn⟩ := List.nodup_cons.mp hn
    have ht := toggles_foldl r cx byte bs hn
    by_cases hbit : byte.getLsbD (7 - b) = true
    · have hc := (toggles_plot r (cx + b)).comp ht (fun y x h ⟨b', hb', _, hx, _⟩ => by
        have : b' = b := by omega
        exact hb (this ▸ hb'))
      simp only [List.foldl_cons, hbit, if_true]
      refine hc.congr (fun y x => ?_)
      simp only [List.mem_cons, exists_eq_or_imp, hbit, and_true]
    · simp only [List.foldl_cons, if_neg hbit]
      refine ht.congr (fun y x => ?_)
      simp only [List.mem_cons, exists_eq_or_imp, hbit]
      simp

/-- One sprite row (rule R130). -/
theorem toggles_drawRow (r cx : Nat) (byte : Byte) : Toggles (Screen.drawRow r cx byte)
    (fun y x => ∃ b, b < 8 ∧ y.val = r ∧ x.val = cx + b ∧ byte.getLsbD (7 - b) = true) :=
  (toggles_foldl r cx byte (List.range 8) List.nodup_range).congr (fun y x => by simp only [List.mem_range])

/-- All the sprite rows (rule R130). -/
theorem toggles_drawRows (cx : Nat) : ∀ (bytes : List Byte) (r : Nat), Toggles (Screen.drawRows cx r bytes)
    (fun y x => ∃ j b, j < bytes.length ∧ b < 8 ∧ y.val = r + j ∧ x.val = cx + b ∧ (bytes.getD j 0).getLsbD (7 - b) = true)
  | [], r => toggles_id.congr (fun y x => by simp)
  | byte :: bytes, r => by
    have hc := (toggles_drawRow r cx byte).comp (toggles_drawRows cx bytes (r + 1))
      (fun y x ⟨b, _, hy, _⟩ ⟨j, b', _, _, hy', _⟩ => by omega)
    refine hc.congr (fun y x => ⟨?_, ?_⟩)
    · rintro (⟨b, hb, hy, hx, hbit⟩ | ⟨j, b, hj, hb, hy, hx, hbit⟩)
      · exact ⟨0, b, by simp, hb, by omega, hx, by simpa using hbit⟩
      · exact ⟨j + 1, b, by simpa using hj, hb, by omega, hx, by simpa using hbit⟩
    · rintro ⟨j, b, hj, hb, hy, hx, hbit⟩
      rcases j with _ | j
      · exact .inl ⟨b, hb, by omega, hx, by simpa using hbit⟩
      · exact .inr ⟨j, b, by simpa using hj, hb, by omega, hx, by simpa using hbit⟩

end Sys2Proof.Machine
end

