-- ==== Sys2Proof/Laws/Encoding.lean ====
section
/-! SUPPORT. The bits of an encoded word, and the fixed bits of each format of rule R71. -/

namespace Sys2Proof

/-- Appending two bit vectors, at a width that is only definitionally their sum. -/
theorem getLsbD_append_cast {w v n : Nat} (a : BitVec w) (b : BitVec v) (h : w + v = n) (i : Nat) :
    BitVec.getLsbD (w := n) (h ▸ (a ++ b)) i = if i < v then b.getLsbD i else a.getLsbD (i - v) := by
  subst h
  simp only [BitVec.getLsbD_append]

theorem encodeNNN_bit (f : BitVec 4) (nnn : Addr12) (i : Nat) :
    (encodeNNN f nnn).getLsbD i = if i < 12 then nnn.getLsbD i else f.getLsbD (i - 12) :=
  getLsbD_append_cast f nnn rfl i

theorem encodeXKK_bit (f : BitVec 4) (x : Reg) (kk : Byte) (i : Nat) : (encodeXKK f x kk).getLsbD i =
    if i < 8 then kk.getLsbD i else if i < 12 then (nibbleOfReg x).getLsbD (i - 8) else f.getLsbD (i - 12) := by
  refine (getLsbD_append_cast (f ++ nibbleOfReg x) kk rfl i).trans ?_
  split
  · rfl
  · refine (getLsbD_append_cast f (nibbleOfReg x) rfl (i - 8)).trans ?_
    have : i - 8 < 4 ↔ i < 12 := by omega
    simp only [this, Nat.sub_sub]

theorem encodeXYN_bit (f : BitVec 4) (x y : Reg) (n : BitVec 4) (i : Nat) : (encodeXYN f x y n).getLsbD i =
    if i < 4 then n.getLsbD i else if i < 8 then (nibbleOfReg y).getLsbD (i - 4)
    else if i < 12 then (nibbleOfReg x).getLsbD (i - 8) else f.getLsbD (i - 12) := by
  refine (getLsbD_append_cast (f ++ nibbleOfReg x ++ nibbleOfReg y) n rfl i).trans ?_
  split
  · rfl
  · refine (getLsbD_append_cast (f ++ nibbleOfReg x) (nibbleOfReg y) rfl (i - 4)).trans ?_
    have h8 : i - 4 < 4 ↔ i < 8 := by omega
    have h12 : i - 8 < 4 ↔ i < 12 := by omega
    rw [getLsbD_append_cast f (nibbleOfReg x) rfl (i - 4 - 4)]
    simp only [h8, Nat.sub_sub, Nat.reduceAdd, h12]

/-- The fixed bits of format `nnn`. -/
theorem encodeNNN_mask (f : BitVec 4) (nnn : Addr12) : encodeNNN f nnn &&& 0xF000 = encodeNNN f 0 := by
  refine BitVec.eq_of_getLsbD_eq (fun i hi => ?_)
  rw [BitVec.getLsbD_and, encodeNNN_bit, encodeNNN_bit]
  interval_cases i <;> simp

/-- The fixed bits of format `xkk`. -/
theorem encodeXKK_mask (f : BitVec 4) (x : Reg) (kk : Byte) : encodeXKK f x kk &&& 0xF000 = encodeXKK f 0 0 := by
  refine BitVec.eq_of_getLsbD_eq (fun i hi => ?_)
  rw [BitVec.getLsbD_and, encodeXKK_bit, encodeXKK_bit]
  interval_cases i <;> simp [nibbleOfReg]

/-- The fixed bits of format `x`. -/
theorem encodeX_mask (f : BitVec 4) (x : Reg) (kk : Byte) : encodeXKK f x kk &&& 0xF0FF = encodeXKK f 0 kk := by
  refine BitVec.eq_of_getLsbD_eq (fun i hi => ?_)
  rw [BitVec.getLsbD_and, encodeXKK_bit, encodeXKK_bit]
  interval_cases i <;> simp [nibbleOfReg]

/-- The fixed bits of format `xy`. -/
theorem encodeXY_mask (f : BitVec 4) (x y : Reg) (n : BitVec 4) : encodeXYN f x y n &&& 0xF00F = encodeXYN f 0 0 n := by
  refine BitVec.eq_of_getLsbD_eq (fun i hi => ?_)
  rw [BitVec.getLsbD_and, encodeXYN_bit, encodeXYN_bit]
  interval_cases i <;> simp [nibbleOfReg]

/-- The fixed bits of format `xyn`. -/
theorem encodeXYN_mask (f : BitVec 4) (x y : Reg) (n : BitVec 4) : encodeXYN f x y n &&& 0xF000 = encodeXYN f 0 0 0 := by
  refine BitVec.eq_of_getLsbD_eq (fun i hi => ?_)
  rw [BitVec.getLsbD_and, encodeXYN_bit, encodeXYN_bit]
  interval_cases i <;> simp [nibbleOfReg]

end Sys2Proof
end

