-- ==== Sys2Proof/Laws/PerInstr.lean ====
section
/-! SUPPORT. The family `TableRow`: an instruction's word matches its own row of the opcode table (rule R81), whatever its
operands. One lemma per constructor. -/

namespace Sys2Proof.Laws.TableRow

/-- The instruction's row stands in the table, and its word matches that row. -/
def Statement (i : Instr) : Prop := i.row ∈ opcodeTable ∧ i.row.matchesWord (encode i) = true

theorem of_masked {w w' : Word} {r : OpcodeRow} (h : w &&& r.mask = w') (e : w' = r.pattern) : r.matchesWord w = true := by
  simp [OpcodeRow.matchesWord, h, e]

theorem cls : Statement .cls := ⟨by decide, by decide⟩
theorem ret : Statement .ret := ⟨by decide, by decide⟩
theorem jp (nnn : Addr12) : Statement (.jp nnn) := ⟨by simp only [Instr.row]; decide, of_masked (encodeNNN_mask _ nnn) (by simp only [Instr.row]; decide)⟩
theorem call (nnn : Addr12) : Statement (.call nnn) := ⟨by simp only [Instr.row]; decide, of_masked (encodeNNN_mask _ nnn) (by simp only [Instr.row]; decide)⟩
theorem seByte (x : Reg) (kk : Byte) : Statement (.seByte x kk) := ⟨by simp only [Instr.row]; decide, of_masked (encodeXKK_mask _ x kk) (by simp only [Instr.row]; decide)⟩
theorem sneByte (x : Reg) (kk : Byte) : Statement (.sneByte x kk) := ⟨by simp only [Instr.row]; decide, of_masked (encodeXKK_mask _ x kk) (by simp only [Instr.row]; decide)⟩
theorem seReg (x y : Reg) : Statement (.seReg x y) := ⟨by simp only [Instr.row]; decide, of_masked (encodeXY_mask _ x y _) (by simp only [Instr.row]; decide)⟩
theorem ldByte (x : Reg) (kk : Byte) : Statement (.ldByte x kk) := ⟨by simp only [Instr.row]; decide, of_masked (encodeXKK_mask _ x kk) (by simp only [Instr.row]; decide)⟩
theorem addByte (x : Reg) (kk : Byte) : Statement (.addByte x kk) := ⟨by simp only [Instr.row]; decide, of_masked (encodeXKK_mask _ x kk) (by simp only [Instr.row]; decide)⟩
theorem ldReg (x y : Reg) : Statement (.ldReg x y) := ⟨by simp only [Instr.row]; decide, of_masked (encodeXY_mask _ x y _) (by simp only [Instr.row]; decide)⟩
theorem orReg (x y : Reg) : Statement (.orReg x y) := ⟨by simp only [Instr.row]; decide, of_masked (encodeXY_mask _ x y _) (by simp only [Instr.row]; decide)⟩
theorem andReg (x y : Reg) : Statement (.andReg x y) := ⟨by simp only [Instr.row]; decide, of_masked (encodeXY_mask _ x y _) (by simp only [Instr.row]; decide)⟩
theorem xorReg (x y : Reg) : Statement (.xorReg x y) := ⟨by simp only [Instr.row]; decide, of_masked (encodeXY_mask _ x y _) (by simp only [Instr.row]; decide)⟩
theorem addReg (x y : Reg) : Statement (.addReg x y) := ⟨by simp only [Instr.row]; decide, of_masked (encodeXY_mask _ x y _) (by simp only [Instr.row]; decide)⟩
theorem subReg (x y : Reg) : Statement (.subReg x y) := ⟨by simp only [Instr.row]; decide, of_masked (encodeXY_mask _ x y _) (by simp only [Instr.row]; decide)⟩
theorem shr (x y : Reg) : Statement (.shr x y) := ⟨by simp only [Instr.row]; decide, of_masked (encodeXY_mask _ x y _) (by simp only [Instr.row]; decide)⟩
theorem subnReg (x y : Reg) : Statement (.subnReg x y) := ⟨by simp only [Instr.row]; decide, of_masked (encodeXY_mask _ x y _) (by simp only [Instr.row]; decide)⟩
theorem shl (x y : Reg) : Statement (.shl x y) := ⟨by simp only [Instr.row]; decide, of_masked (encodeXY_mask _ x y _) (by simp only [Instr.row]; decide)⟩
theorem sneReg (x y : Reg) : Statement (.sneReg x y) := ⟨by simp only [Instr.row]; decide, of_masked (encodeXY_mask _ x y _) (by simp only [Instr.row]; decide)⟩
theorem ldI (nnn : Addr12) : Statement (.ldI nnn) := ⟨by simp only [Instr.row]; decide, of_masked (encodeNNN_mask _ nnn) (by simp only [Instr.row]; decide)⟩
theorem jpV0 (nnn : Addr12) : Statement (.jpV0 nnn) := ⟨by simp only [Instr.row]; decide, of_masked (encodeNNN_mask _ nnn) (by simp only [Instr.row]; decide)⟩
theorem rnd (x : Reg) (kk : Byte) : Statement (.rnd x kk) := ⟨by simp only [Instr.row]; decide, of_masked (encodeXKK_mask _ x kk) (by simp only [Instr.row]; decide)⟩
theorem drw (x y : Reg) (n : Nat) : Statement (.drw x y n) := ⟨by simp only [Instr.row]; decide, of_masked (encodeXYN_mask _ x y _) (by simp only [Instr.row]; decide)⟩
theorem skp (x : Reg) : Statement (.skp x) := ⟨by simp only [Instr.row]; decide, of_masked (encodeX_mask _ x _) (by simp only [Instr.row]; decide)⟩
theorem sknp (x : Reg) : Statement (.sknp x) := ⟨by simp only [Instr.row]; decide, of_masked (encodeX_mask _ x _) (by simp only [Instr.row]; decide)⟩
theorem ldVxDT (x : Reg) : Statement (.ldVxDT x) := ⟨by simp only [Instr.row]; decide, of_masked (encodeX_mask _ x _) (by simp only [Instr.row]; decide)⟩
theorem ldVxK (x : Reg) : Statement (.ldVxK x) := ⟨by simp only [Instr.row]; decide, of_masked (encodeX_mask _ x _) (by simp only [Instr.row]; decide)⟩
theorem ldDTVx (x : Reg) : Statement (.ldDTVx x) := ⟨by simp only [Instr.row]; decide, of_masked (encodeX_mask _ x _) (by simp only [Instr.row]; decide)⟩
theorem ldSTVx (x : Reg) : Statement (.ldSTVx x) := ⟨by simp only [Instr.row]; decide, of_masked (encodeX_mask _ x _) (by simp only [Instr.row]; decide)⟩
theorem addIVx (x : Reg) : Statement (.addIVx x) := ⟨by simp only [Instr.row]; decide, of_masked (encodeX_mask _ x _) (by simp only [Instr.row]; decide)⟩
theorem ldFVx (x : Reg) : Statement (.ldFVx x) := ⟨by simp only [Instr.row]; decide, of_masked (encodeX_mask _ x _) (by simp only [Instr.row]; decide)⟩
theorem ldBVx (x : Reg) : Statement (.ldBVx x) := ⟨by simp only [Instr.row]; decide, of_masked (encodeX_mask _ x _) (by simp only [Instr.row]; decide)⟩
theorem ldMemVx (x : Reg) : Statement (.ldMemVx x) := ⟨by simp only [Instr.row]; decide, of_masked (encodeX_mask _ x _) (by simp only [Instr.row]; decide)⟩
theorem ldVxMem (x : Reg) : Statement (.ldVxMem x) := ⟨by simp only [Instr.row]; decide, of_masked (encodeX_mask _ x _) (by simp only [Instr.row]; decide)⟩

/-- For every instruction. -/
theorem all (i : Instr) : Statement i := by
  cases i with
  | cls => exact cls
  | ret => exact ret
  | jp nnn => exact jp nnn
  | call nnn => exact call nnn
  | seByte x kk => exact seByte x kk
  | sneByte x kk => exact sneByte x kk
  | seReg x y => exact seReg x y
  | ldByte x kk => exact ldByte x kk
  | addByte x kk => exact addByte x kk
  | ldReg x y => exact ldReg x y
  | orReg x y => exact orReg x y
  | andReg x y => exact andReg x y
  | xorReg x y => exact xorReg x y
  | addReg x y => exact addReg x y
  | subReg x y => exact subReg x y
  | shr x y => exact shr x y
  | subnReg x y => exact subnReg x y
  | shl x y => exact shl x y
  | sneReg x y => exact sneReg x y
  | ldI nnn => exact ldI nnn
  | jpV0 nnn => exact jpV0 nnn
  | rnd x kk => exact rnd x kk
  | drw x y n => exact drw x y n
  | skp x => exact skp x
  | sknp x => exact sknp x
  | ldVxDT x => exact ldVxDT x
  | ldVxK x => exact ldVxK x
  | ldDTVx x => exact ldDTVx x
  | ldSTVx x => exact ldSTVx x
  | addIVx x => exact addIVx x
  | ldFVx x => exact ldFVx x
  | ldBVx x => exact ldBVx x
  | ldMemVx x => exact ldMemVx x
  | ldVxMem x => exact ldVxMem x

end Sys2Proof.Laws.TableRow
end

