-- ==== Sys2Proof/Laws/Step.lean ====
section
/-! SUPPORT. What one step can do, once: the four cases of a cycle (rules R87, R88, R92 and R96). -/

namespace Sys2Proof.Machine

/-- A fetch succeeds exactly below 0xFFF, with the big-endian word at PC. -/
theorem State.fetch_eq_ok {s : State} {w : Word} (h : s.fetch = .ok w) :
    s.pc.toNat < 0xFFF ∧ w = wordOfBytes (s.byteAt s.pc.toNat) (s.byteAt (s.pc.toNat + 1)) := by
  by_cases hp : 0xFFF ≤ s.pc.toNat
  · rw [State.fetch_error hp] at h; cases h
  · rw [State.fetch_ok (Nat.lt_of_not_le hp)] at h
    cases h
    exact ⟨Nat.lt_of_not_le hp, rfl⟩

/-- THE FOUR CASES OF A STEP: a halted core, a fetch outside memory, an unknown word, an instruction. -/
theorem step_cases {s t : State} (h : step s = .next t) :
    (s.halted = true ∧ t = s.takeInput) ∨
    (s.halted = false ∧ 0xFFF ≤ s.pc.toNat ∧
      t = (s.raise ⟨.fetchRange, if s.pc.toNat ≥ 0x1000 then s.pc else 0x1000⟩).takeInput) ∨
    (∃ w, s.halted = false ∧ s.fetch = .ok w ∧ decodeWord w = none ∧ t = s.prologue.takeInput) ∨
    (∃ w i u, s.halted = false ∧ s.fetch = .ok w ∧ decodeWord w = some i ∧ exec i s = .next u ∧ t = u.takeInput) := by
  unfold step cycle at h
  split at h
  · rename_i hh; exact .inl ⟨hh, (Host.Outcome.next.inj h).symm⟩
  · rename_i hh
    have hh : s.halted = false := by simpa using hh
    split at h
    · rename_i r hr
      by_cases hp : 0xFFF ≤ s.pc.toNat
      · rw [State.fetch_error hp] at hr
        cases hr
        exact .inr (.inl ⟨hh, hp, (Host.Outcome.next.inj h).symm⟩)
      · rw [State.fetch_ok (Nat.lt_of_not_le hp)] at hr; cases hr
    · rename_i w hw
      split at h
      · rename_i hd
        exact .inr (.inr (.inl ⟨w, hh, hw, hd, (Host.Outcome.next.inj h).symm⟩))
      · rename_i i hd
        simp only at h
        rcases hu : exec i s with u | r | r
        · rw [hu] at h
          exact .inr (.inr (.inr ⟨w, i, u, hh, hw, hd, hu, (Host.Outcome.next.inj h).symm⟩))
        · rw [hu] at h; cases h
        · rw [hu] at h; cases h

end Sys2Proof.Machine
end

