-- ==== Sys2Proof/Tests/Slice0.lean ====
section
/-! SUPPORT. Tests. Expected results are those of spec/95_test_vectors.md (the V numbers are its rows), of the opcode table's patterns
and of the examples in the instruction rules; none is the model's own answer. The last part gives the witnesses: for every
statement with hypotheses, a state and operands that meet them. -/

namespace Sys2Proof.Tests

open Sys2Proof.Machine

/-! ## Helpers -/

/-- The state an outcome leaves. -/
def after (o : Host.Outcome State Fault Refusal) : State :=
  match o with
  | .next t => t
  | .fault _ => State.reset
  | .refused _ => State.reset

/-- One step of `s` with the word `w` stored at PC. -/
def run (s : State) (w : Nat) : State := after (step (s.withFetchWord 16 w))

/-- The state after reset with I, and V1 and V2 set: the start of most vectors. -/
def start (i : Word) (v1 v2 : Byte) : State := ((State.reset.setI i).setReg 1 v1).setReg 2 v2

/-- A state whose next cycle has the inputs K and RND. -/
def withInput (s : State) (k : BitVec 16) (rnd : Byte) : State := { s with inputs := [⟨k, rnd⟩] }

/-- Bytes in memory. -/
def withBytes (s : State) (a : Nat) (bs : List Byte) : State := s.setMem (Memory.writeAll s.unlisted s.mem a bs)

/-- The fault record. -/
def record (s : State) : BitVec 4 × Word × Word := (s.faultCode, s.faultPc, s.faultInfo)

/-! ## Well-formedness: the one check, and a term it refuses -/

theorem test_wellFormed_refuses_height_16 : (Instr.drw 0 1 16).wellFormed = false := by decide

theorem test_wellFormed_accepts_height_15 : (Instr.drw 0 1 15).wellFormed = true := by decide

/-! ## Decoding: every constructor, by a word written out from its pattern -/

theorem test_decode_family_0_to_2 : decodeWord 0x00E0 = some .cls ∧ decodeWord 0x00EE = some .ret ∧
    decodeWord 0x1ABC = some (.jp 0xABC) ∧ decodeWord 0x2FED = some (.call 0xFED) := by decide

theorem test_decode_family_3_to_7 : decodeWord 0x3342 = some (.seByte 3 0x42) ∧ decodeWord 0x4F43 = some (.sneByte 15 0x43) ∧
    decodeWord 0x5120 = some (.seReg 1 2) ∧ decodeWord 0x6AFF = some (.ldByte 10 0xFF) ∧
    decodeWord 0x7102 = some (.addByte 1 0x02) := by decide

theorem test_decode_family_8 : decodeWord 0x8120 = some (.ldReg 1 2) ∧ decodeWord 0x8341 = some (.orReg 3 4) ∧
    decodeWord 0x8562 = some (.andReg 5 6) ∧ decodeWord 0x8783 = some (.xorReg 7 8) ∧ decodeWord 0x89A4 = some (.addReg 9 10) ∧
    decodeWord 0x8BC5 = some (.subReg 11 12) ∧ decodeWord 0x8DE6 = some (.shr 13 14) ∧ decodeWord 0x8F07 = some (.subnReg 15 0) ∧
    decodeWord 0x810E = some (.shl 1 0) := by decide

theorem test_decode_family_9_to_D : decodeWord 0x9120 = some (.sneReg 1 2) ∧ decodeWord 0xA123 = some (.ldI 0x123) ∧
    decodeWord 0xBFFF = some (.jpV0 0xFFF) ∧ decodeWord 0xC10F = some (.rnd 1 0x0F) ∧ decodeWord 0xDAB2 = some (.drw 10 11 2) := by
  decide

theorem test_decode_family_E_F : decodeWord 0xE19E = some (.skp 1) ∧ decodeWord 0xE2A1 = some (.sknp 2) ∧
    decodeWord 0xF307 = some (.ldVxDT 3) ∧ decodeWord 0xF40A = some (.ldVxK 4) ∧ decodeWord 0xF515 = some (.ldDTVx 5) ∧
    decodeWord 0xF618 = some (.ldSTVx 6) ∧ decodeWord 0xF71E = some (.addIVx 7) ∧ decodeWord 0xF829 = some (.ldFVx 8) ∧
    decodeWord 0xF933 = some (.ldBVx 9) ∧ decodeWord 0xFA55 = some (.ldMemVx 10) ∧ decodeWord 0xFB65 = some (.ldVxMem 11) := by
  decide

/-- V6: words that match no row. -/
theorem test_decode_unknown_V6 : ([0x5121, 0x9AB3, 0x8008, 0x800F, 0xE000, 0xE09F, 0xF000, 0xF0FF, 0x01E0, 0x00E1, 0x0123,
    0xFFFF] : List Word).map decodeWord = List.replicate 12 none := rfl

theorem test_decode_bytes_reject : decode [0x51, 0x21, 0x60] = .error (.unknownWord 0x5121) ∧ decode [0x60] = .error .truncated ∧
    decode [0x6A, 0x7F, 0x00] = .ok (.ldByte 10 0x7F, [0x00]) := ⟨rfl, rfl, rfl⟩

theorem test_encode_words : encode (.drw 10 11 2) = 0xDAB2 ∧ encode (.subReg 1 2) = 0x8125 ∧ encode (.ldMemVx 2) = 0xF255 := by decide

theorem test_decodeTableWord : decodeTableWord 16 0xD015 = some (.drw 0 1 5) ∧ decodeTableWord 16 0x5121 = none := by decide

/-- Rule R81: the rows are pairwise disjoint. -/
theorem test_opcode_rows_disjoint :
    opcodeTable.Pairwise (fun r q => (r.pattern ^^^ q.pattern) &&& r.mask &&& q.mask ≠ 0) := by decide

/-! ## The cycle -/

/-- V1: the last whole word of memory fetches normally. -/
theorem test_fetch_last_word_V1 : (run (State.reset.setPc 0xFFE) 0x1200).pc = 0x200 := by decide

/-- V2: FETCH_RANGE at 0xFFF, with no tick. -/
theorem test_fetch_fault_V2 : record (after (step (State.reset.setPc 0xFFF))) = (1, 0xFFF, 0x1000) ∧
    (after (step (State.reset.setPc 0xFFF))).dt = 60 := by decide

/-- V4: a halted core does nothing. -/
theorem test_halted_V4 : run (withInput { State.reset with faultCode := 4 } 0 0) 0x6105 =
    { (State.reset.withFetchWord 16 0x6105) with faultCode := 4, draws := 1 } := by decide

/-- V5: an unknown word is reported. -/
theorem test_unknown_V5 : (cycle State.reset).event = some ⟨0x200, 0x0000⟩ ∧ (after (step State.reset)).pc = 0x202 := by decide

/-- V7: an odd PC fetches normally. -/
theorem test_odd_pc_V7 : (run (State.reset.setPc 0x201) 0x6107).reg 1 = 7 ∧ (run (State.reset.setPc 0x201) 0x6107).pc = 0x203 := by
  decide

/-- V8: the timers stop at 0. -/
theorem test_tick_V8 : (after (step ((State.reset.setDt 1).setSt 0))).dt = 0 ∧ (after (step ((State.reset.setDt 1).setSt 0))).st = 0 := by
  decide

/-! ## Instructions, by the vectors of spec/95_test_vectors.md -/

/-- V84. -/
theorem test_cls_V84 : (run (State.reset.setFb ((Screen.plot 0 0 (Screen.plot 31 63 (Screen.blank, false))).1)) 0x00E0).pixel 0 0 = false ∧
    (run (State.reset.setFb ((Screen.plot 0 0 (Screen.plot 31 63 (Screen.blank, false))).1)) 0x00E0).pixel 31 63 = false := by decide

/-- V9. -/
theorem test_ret_V9 : (run { State.reset with sp := 1, stack := State.reset.stack.set 0 0x202, pc := 0x300 } 0x00EE).pc = 0x202 ∧
    (run { State.reset with sp := 1, stack := State.reset.stack.set 0 0x202, pc := 0x300 } 0x00EE).sp = 0 ∧
    (run { State.reset with sp := 1, stack := State.reset.stack.set 0 0x202, pc := 0x300 } 0x00EE).entry 0 = 0x202 := by decide

/-- V10. -/
theorem test_ret_underflow_V10 : record (run (State.reset.setPc 0x300) 0x00EE) = (5, 0x300, 0) := by decide

/-- V11. -/
theorem test_jp_V11 : (run State.reset 0x1ABC).pc = 0xABC := by decide

/-- V12. -/
theorem test_call_V12 : (run State.reset 0x2300).entry 0 = 0x202 ∧
    (run State.reset 0x2300).sp = 1 ∧
    (run State.reset 0x2300).pc = 0x300 := by decide

/-- V13. -/
theorem test_call_overflow_V13 : record (run { State.reset with sp := 16 } 0x2300) = (4, 0x200, 0x300) ∧
    (run { State.reset with sp := 16 } 0x2300).pc = 0x200 := by decide

/-- V14 and V15. -/
theorem test_seByte_V14_V15 : (run (State.reset.setReg 3 0x42) 0x3342).pc = 0x204 ∧
    (run (State.reset.setReg 3 0x42) 0x3343).pc = 0x202 := by decide

/-- V16 and V17. -/
theorem test_sneByte_V16_V17 : (run (State.reset.setReg 3 0x42) 0x4342).pc = 0x202 ∧
    (run (State.reset.setReg 3 0x42) 0x4343).pc = 0x204 := by decide

/-- V18 and V19. -/
theorem test_seReg_V18_V19 : (run (start 0 7 7) 0x5120).pc = 0x204 ∧
    (run (start 0 7 8) 0x5120).pc = 0x202 := by decide

/-- V21 and V22. -/
theorem test_sneReg_V21_V22 : (run (start 0 7 7) 0x9120).pc = 0x202 ∧
    (run (start 0 7 8) 0x9120).pc = 0x204 := by decide

/-- V23. -/
theorem test_jpV0_V23 : (run (State.reset.setReg 0 0x10) 0xB300).pc = 0x310 := by decide

/-- V24: the sum is not reduced. -/
theorem test_jpV0_V24 : (run (State.reset.setReg 0 0xFF) 0xBFFF).pc = 0x10FE := by decide

/-- V26. -/
theorem test_ldByte_V26 : (run State.reset 0x6AFF).reg 10 = 0xFF := by decide

/-- V27: no carry flag. -/
theorem test_addByte_V27 : (run ((State.reset.setReg 1 0xFF).setReg 15 0x55) 0x7102).reg 1 = 1 ∧
    (run ((State.reset.setReg 1 0xFF).setReg 15 0x55) 0x7102).reg 15 = 0x55 := by decide

/-- V28. -/
theorem test_addByte_V28 : (run (State.reset.setReg 15 0x10) 0x7F05).reg 15 = 0x15 := by decide

/-- V29. -/
theorem test_ldReg_V29 : (run (start 0 0 0x33) 0x8120).reg 1 = 0x33 := by decide

/-- V30: VF is not reset. -/
theorem test_orReg_V30 : (run ((start 0 0xF0 0x0F).setReg 15 0x77) 0x8121).reg 1 = 0xFF ∧
    (run ((start 0 0xF0 0x0F).setReg 15 0x77) 0x8121).reg 15 = 0x77 := by decide

/-- V31. -/
theorem test_andReg_V31 : (run (start 0 0xF0 0x3C) 0x8122).reg 1 = 0x30 := by decide

/-- V32. -/
theorem test_xorReg_V32 : (run (start 0 0xF0 0x3C) 0x8123).reg 1 = 0xCC := by decide

/-- V36: a sum of 256. -/
theorem test_addReg_V36 : (run (start 0 100 156) 0x8124).reg 1 = 0 ∧
    (run (start 0 100 156) 0x8124).reg 15 = 1 := by decide

/-- V37: the flag overwrites the sum. -/
theorem test_addReg_V37 : (run ((State.reset.setReg 15 200).setReg 1 100) 0x8F14).reg 15 = 1 := by decide

/-- V40. -/
theorem test_subReg_V40 : (run (start 0 50 100) 0x8125).reg 1 = 0xCE ∧
    (run (start 0 50 100) 0x8125).reg 15 = 0 := by decide

/-- V42: equal operands give 0. -/
theorem test_subReg_V42 : (run ((start 0 7 7).setReg 15 9) 0x8125).reg 1 = 0 ∧
    (run ((start 0 7 7).setReg 15 9) 0x8125).reg 15 = 0 := by decide

/-- V47: Vy is ignored. -/
theorem test_shr_V47 : (run (start 0 4 0xFF) 0x8126).reg 1 = 2 ∧
    (run (start 0 4 0xFF) 0x8126).reg 2 = 0xFF ∧
    (run (start 0 4 0xFF) 0x8126).reg 15 = 0 := by decide

/-- V48: the flag overwrites the result. -/
theorem test_shr_V48 : (run (State.reset.setReg 15 2) 0x8F06).reg 15 = 0 := by decide

/-- V51. -/
theorem test_subnReg_V51 : (run (start 0 50 100) 0x8127).reg 1 = 0x32 ∧
    (run (start 0 50 100) 0x8127).reg 15 = 1 := by decide

/-- V50. -/
theorem test_subnReg_V50 : (run (start 0 100 50) 0x8127).reg 1 = 0xCE ∧
    (run (start 0 100 50) 0x8127).reg 15 = 0 := by decide

/-- V53. -/
theorem test_shl_V53 : (run (start 0 0x81 0) 0x810E).reg 1 = 2 ∧
    (run (start 0 0x81 0) 0x810E).reg 15 = 1 := by decide

/-- V55: the flag overwrites the result. -/
theorem test_shl_V55 : (run (State.reset.setReg 15 0x40) 0x8F0E).reg 15 = 0 := by decide

/-- V57. -/
theorem test_rnd_V57 : (run (withInput State.reset 0 0xAB) 0xC10F).reg 1 = 0x0B := by decide

/-- V60. -/
theorem test_ldI_V60 : (run State.reset 0xA123).i = 0x123 := by decide

/-- V62: no 12-bit wrap. -/
theorem test_addIVx_V62 : (run (start 0xFFF 1 0) 0xF11E).i = 0x1000 ∧
    (run (start 0xFFF 1 0) 0xF11E).halted = false := by decide

/-- V64: VF is not written. -/
theorem test_addIVx_V64 : (run ((State.reset.setI 0xFFFF).setReg 15 0x55) 0xFF1E).i = 0x54 ∧
    (run ((State.reset.setI 0xFFFF).setReg 15 0x55) 0xFF1E).reg 15 = 0x55 := by decide

/-- V65. -/
theorem test_ldFVx_V65 : (run (start 0 0x0A 0) 0xF129).i = 0x32 := by decide

/-- V67: no mask. -/
theorem test_ldFVx_V67 : (run (start 0 0xFF 0) 0xF129).i = 0x4FB := by decide

/-- V68. -/
theorem test_ldBVx_V68 : (run (start 0x300 254 0) 0xF133).byteAt 0x300 = 2 ∧
    (run (start 0x300 254 0) 0xF133).byteAt 0x301 = 5 ∧
    (run (start 0x300 254 0) 0xF133).byteAt 0x302 = 4 ∧
    (run (start 0x300 254 0) 0xF133).i = 0x300 := by decide

/-- V72: LOW_WRITE under the default policy. -/
theorem test_ldBVx_low_V72 : record (run ((start 0x1FF 123 0).setPc 0x300) 0xF133) = (6, 0x300, 0x1FF) ∧
    (run ((start 0x1FF 123 0).setPc 0x300) 0xF133).byteAt 0x200 = 0 := by decide

/-- V75: the last byte of memory. -/
theorem test_ldMemVx_V75 : (run ((State.reset.setI 0xFF8).setReg 7 0xEE) 0xF755).byteAt 0xFFF = 0xEE ∧
    (run ((State.reset.setI 0xFF8).setReg 7 0xEE) 0xF755).i = 0x1000 := by decide

/-- V76: nothing is written. -/
theorem test_ldMemVx_range_V76 : record (run ((State.reset.setI 0xFF8).setReg 0 9) 0xF855) = (3, 0x200, 0x1000) ∧
    (run ((State.reset.setI 0xFF8).setReg 0 9) 0xF855).byteAt 0xFF8 = 0 ∧
    (run ((State.reset.setI 0xFF8).setReg 0 9) 0xF855).i = 0xFF8 := by decide

/-- V81: glyph 0 of the default font. -/
theorem test_ldVxMem_V81 : (run State.reset 0xF465).reg 0 = 0xF0 ∧
    (run State.reset 0xF465).reg 3 = 0x90 ∧
    (run State.reset 0xF465).reg 4 = 0xF0 ∧
    (run State.reset 0xF465).i = 5 := by decide

/-- V83. -/
theorem test_ldVxMem_range_V83 : record (run ((State.reset.setI 0xFFF).setReg 0 7) 0xF165) = (2, 0x200, 0x1000) ∧
    (run ((State.reset.setI 0xFFF).setReg 0 7) 0xF165).reg 0 = 7 ∧
    (run ((State.reset.setI 0xFFF).setReg 0 7) 0xF165).i = 0xFFF := by decide

/-- V93: a collision. -/
theorem test_drw_V93 : (run (withBytes ((State.reset.setI 0x300).setFb ((Screen.plot 0 0 (Screen.blank, false)).1)) 0x300 [0xC0]) 0xD011).pixel 0 0 = false ∧
    (run (withBytes ((State.reset.setI 0x300).setFb ((Screen.plot 0 0 (Screen.blank, false)).1)) 0x300 [0xC0]) 0xD011).pixel 0 1 = true ∧
    (run (withBytes ((State.reset.setI 0x300).setFb ((Screen.plot 0 0 (Screen.blank, false)).1)) 0x300 [0xC0]) 0xD011).reg 15 = 1 := by decide

/-- V88: row 32 is dropped. -/
theorem test_drw_V88 : (run (withBytes ((State.reset.setI 0x300).setReg 1 31) 0x300 [0x80, 0x80]) 0xD012).pixel 31 0 = true ∧
    (run (withBytes ((State.reset.setI 0x300).setReg 1 31) 0x300 [0x80, 0x80]) 0xD012).pixel 0 0 = false ∧
    (run (withBytes ((State.reset.setI 0x300).setReg 1 31) 0x300 [0x80, 0x80]) 0xD012).reg 15 = 0 := by decide

/-- V95 and V96. -/
theorem test_skp_V95_V96 : (run (withInput (start 0 5 0) 0x20 0) 0xE19E).pc = 0x204 ∧
    (run (withInput (start 0 5 0) 0 0) 0xE19E).pc = 0x202 := by decide

/-- V99 and V100: a key number above 15. -/
theorem test_skp_policies_V99_V100 : record (run (withInput (start 0 0x10 0) 1 0) 0xE19E) = (7, 0x200, 0x10) ∧
    (run { withInput (start 0 0x10 0) 1 0 with cfg := ⟨Config.defaultFont, .fault, .lowNibble⟩ } 0xE19E).pc = 0x204 := by decide

/-- V97 and V98. -/
theorem test_sknp_V97_V98 : (run (withInput (start 0 5 0) 0x20 0) 0xE1A1).pc = 0x202 ∧
    (run (withInput (start 0 5 0) 0 0) 0xE1A1).pc = 0x204 := by decide

/-- V102: under NOT_DOWN. -/
theorem test_sknp_policy_V102 : (run { withInput (start 0 0x10 0) 0xFFFF 0 with cfg := ⟨Config.defaultFont, .fault, .notDown⟩ } 0xE1A1).pc = 0x204 := by decide

/-- V103: the ticked value. -/
theorem test_ldVxDT_V103 : (run (State.reset.setDt 10) 0xF107).reg 1 = 9 ∧
    (run (State.reset.setDt 10) 0xF107).dt = 9 := by decide

/-- V105: no key, so PC is back. -/
theorem test_ldVxK_V105 : (run (withInput (State.reset.setPc 0x20A) 0 0) 0xF30A).pc = 0x20A ∧
    (run (withInput (State.reset.setPc 0x20A) 0 0) 0xF30A).dt = 59 := by decide

/-- V106: the lowest of keys 9 and 12. -/
theorem test_ldVxK_V106 : (run (withInput (State.reset.setPc 0x20A) 0x1200 0) 0xF30A).reg 3 = 9 ∧
    (run (withInput (State.reset.setPc 0x20A) 0x1200 0) 0xF30A).pc = 0x20C := by decide

/-- V108: written after the tick. -/
theorem test_ldDTVx_V108 : (run ((start 0 10 0).setDt 3) 0xF115).dt = 10 := by decide

/-- V110. -/
theorem test_ldSTVx_V110 : (run ((start 0 1 0).setSt 0) 0xF118).st = 1 ∧
    (run ((start 0 1 0).setSt 0) 0xF118).soundActive = true := by decide

/-! ## Host operations -/

/-- V112 and V113: a load writes its bytes and no others. -/
theorem test_load_V113 : ((withBytes State.reset 0x200 [0xAA, 0xBB, 0xCC]).load [0x11, 0x22]).2.byteAt 0x201 = 0x22 ∧
    ((withBytes State.reset 0x200 [0xAA, 0xBB, 0xCC]).load [0x11, 0x22]).2.byteAt 0x202 = 0xCC := by decide

/-- V115: a load leaves the fault record. -/
theorem test_load_V115 : ({ State.reset with faultCode := 3 }.load [0x60, 0x01]).2.faultCode = 3 := by decide

/-- Section 1, item 7: 3585 bytes are rejected. -/
theorem test_load_rejects_3585 : State.reset.load (List.replicate 3585 0) = (.loadRejected, State.reset) := by
  exact if_pos (by rw [List.length_replicate]; decide)

/-- V111: RESET clears the fault record. -/
theorem test_reset_V111 : record ({ State.reset with faultCode := 3, faultPc := 7 }.perform .reset).2 = (0, 0, 0) := by decide

/-! ## Witnesses: states and operands that meet the hypotheses of each statement -/

/-- The word a state fetches, for the witnesses. -/
abbrev fetches (s : State) (w : Word) : Prop := s.halted = false ∧ s.fetch = .ok w

theorem test_witness_DecodeInvertsEncode : (Instr.drw 3 4 15).wellFormed = true ∧ (Instr.drw 3 4 0).wellFormed = true := by decide

theorem test_witness_EncodeInvertsDecode : decodeWord 0xFF65 = some (.ldVxMem 15) := by decide

theorem test_witness_OpcodeMapByFamily : 0xFFF < 0x1000 ∧ 0x0E0 < 0x1000 ∧ 0xFF < 0x100 ∧ 0xF < 0x10 := by decide

theorem test_witness_UnknownWordsExactly : fetches State.reset 0x0000 ∧ decodeWord 0x0000 = none := ⟨⟨rfl, rfl⟩, by decide⟩

theorem test_witness_FetchIsBigEndian : (State.reset.setPc 0xFFE).pc.toNat + 1 < 4096 := by decide

theorem test_witness_StepRunsDecodedInstruction : fetches (State.reset.withFetchWord 16 0x6A7F) 0x6A7F ∧ decodeWord 0x6A7F = some (.ldByte 10 0x7F) := ⟨⟨rfl, rfl⟩, by decide⟩

theorem test_witness_HaltedCoreStaysHalted : ({ State.reset with faultCode := 4 } : State).halted = true := by decide

theorem test_witness_FetchOutsideMemoryFaults : (State.reset.setPc 0xFFF).halted = false ∧ 0xFFF ≤ (State.reset.setPc 0xFFF).pc.toNat ∧
    0xFFF ≤ (State.reset.setPc 0x10FE).pc.toNat := by decide

theorem test_witness_FaultIsPrecise : (State.reset.withFetchWord 16 0x00EE).halted = false ∧
    ∃ t, step (State.reset.withFetchWord 16 0x00EE) = .next t ∧ t.halted = true := ⟨rfl, _, rfl, rfl⟩

theorem test_witness_FaultsComeFromTheirInstructions : State.reset.halted = false ∧ ∃ t, exec .ret State.reset = .next t ∧ t.halted = true := ⟨rfl, _, rfl, rfl⟩

theorem test_witness_TimersTickOncePerCycle_delay : fetches (State.reset.withFetchWord 16 0xF115) 0xF115 ∧ decodeWord 0xF115 = some (.ldDTVx 1) ∧
    ∃ t, step (State.reset.withFetchWord 16 0xF115) = .next t ∧ t.halted = false := ⟨⟨rfl, rfl⟩, by decide, _, rfl, rfl⟩

theorem test_witness_TimersTickOncePerCycle_sound : fetches (State.reset.withFetchWord 16 0xF118) 0xF118 ∧ decodeWord 0xF118 = some (.ldSTVx 1) ∧
    ∃ t, step (State.reset.withFetchWord 16 0xF118) = .next t ∧ t.halted = false := ⟨⟨rfl, rfl⟩, by decide, _, rfl, rfl⟩

theorem test_witness_TimersTickOncePerCycle_read : fetches (State.reset.withFetchWord 16 0xF107) 0xF107 ∧ decodeWord 0xF107 = some (.ldVxDT 1) ∧
    ∃ t, step (State.reset.withFetchWord 16 0xF107) = .next t ∧ t.halted = false := ⟨⟨rfl, rfl⟩, by decide, _, rfl, rfl⟩

theorem test_witness_TimersTickOncePerCycle_other : fetches (State.reset.withFetchWord 16 0x6A7F) 0x6A7F ∧ (∃ t, step (State.reset.withFetchWord 16 0x6A7F) = .next t ∧ t.halted = false) ∧
    ∀ x : Reg, decodeWord 0x6A7F ≠ some (.ldDTVx x) ∧ decodeWord 0x6A7F ≠ some (.ldSTVx x) := ⟨⟨rfl, rfl⟩, ⟨_, rfl, rfl⟩, by decide⟩

theorem test_witness_ReturnPopsOrFaults : ({ State.reset with sp := 1 } : State).sp.val = (0 : Fin 16).val + 1 ∧
    ({ State.reset with sp := 16 } : State).sp.val = (15 : Fin 16).val + 1 ∧ State.reset.sp.val = 0 := by decide

theorem test_witness_CallPushesOrFaults : State.reset.sp.val = (0 : Fin 16).val ∧ ({ State.reset with sp := 15 } : State).sp.val = (15 : Fin 16).val ∧
    ({ State.reset with sp := 16 } : State).sp.val = 16 := by decide

theorem test_witness_SkipsCompareAndSkip : (1 : BitVec 4) ≠ 0 ∧ (15 : BitVec 4) ≠ 0 := by decide

theorem test_witness_ReturnUndoesCall : ({ State.reset with sp := 15 } : State).sp.val < 16 ∧ ∃ t u : State, exec (.call 0x300) { State.reset with sp := 15 } = .next t ∧
    u.sp = t.sp ∧ ∀ j, u.entry j = t.entry j := ⟨by decide, _, _, rfl, rfl, fun _ => rfl⟩

theorem test_witness_SelfJumpOnlyTicks : fetches (State.reset.withFetchWord 16 0x1200) (encodeNNN 0x1 0x200) ∧
    (0x200 : Addr12).toNat = (State.reset.withFetchWord 16 0x1200).pc.toNat ∧
    ∀ op ∈ ([.cycle 3 4, .cycle 0 0] : List HostOp), ∃ k rnd, op = .cycle k rnd := ⟨⟨rfl, rfl⟩, by decide, by simp⟩

theorem test_witness_AddAndSubtractWithFlag : (14 : Reg) ≠ 15 ∧ 200 = ((start 0 200 100).reg 1).toNat ∧ 100 = ((start 0 200 100).reg 2).toNat := by decide

theorem test_witness_ShiftsOfVx : (14 : Reg) ≠ 15 ∧ 129 = ((start 0 0x81 0).reg 1).toNat := by decide

theorem test_witness_StoreDecimalDigits_stores : (start 0xFFD 255 0).i.toNat + 2 < 4096 ∧ 0x200 ≤ (start 0x200 255 0).i.toNat ∧ (start 0x200 255 0).i.toNat + 2 < 4096 ∧
    ({ start 0 255 0 with cfg := ⟨Config.defaultFont, .allow, .fault⟩ } : State).cfg.lowWrite = .allow := by decide

theorem test_witness_StoreDecimalDigits_range : 4096 ≤ (start 0xFFE 255 0).i.toNat + 2 ∧ 4096 ≤ (start 0x1000 255 0).i.toNat + 2 := by decide

theorem test_witness_StoreDecimalDigits_low : (start 0x1FF 255 0).i.toNat < 0x200 ∧ (start 0x1FF 255 0).cfg.lowWrite = .fault := by decide

theorem test_witness_StoreRegisters_stores : (start 0xFF0 0 0).i.toNat + (15 : Reg).val < 4096 ∧ 0x200 ≤ (start 0xFF0 0 0).i.toNat ∧
    (start 0x200 0 0).i.toNat + (0 : Reg).val < 4096 ∧ 0x200 ≤ (start 0x200 0 0).i.toNat ∧ (15 : Reg).val ≤ (15 : Reg).val := by decide

theorem test_witness_StoreRegisters_range : 4096 ≤ (start 0xFF1 0 0).i.toNat + (15 : Reg).val ∧ 4096 ≤ (start 0x1000 0 0).i.toNat + (0 : Reg).val := by decide

theorem test_witness_StoreRegisters_low : (start 0x1FF 0 0).i.toNat < 0x200 ∧ (start 0x1FF 0 0).cfg.lowWrite = .fault := by decide

theorem test_witness_LoadRegisters : (start 0xFF0 0 0).i.toNat + (15 : Reg).val < 4096 ∧ (15 : Reg).val ≤ (15 : Reg).val ∧
    4096 ≤ (start 0xFF1 0 0).i.toNat + (15 : Reg).val := by decide

theorem test_witness_ByteAccessRules : 0xFFF < 4096 ∧ 0x200 ≤ 0xFFF ∧ 4096 ≤ 0x1000 ∧ 0x1FF < 0x200 ∧ State.reset.cfg.lowWrite = .fault ∧ (0x201 : Nat) ≠ 0x200 ∧
    ({ State.reset with cfg := ⟨Config.defaultFont, .allow, .fault⟩ } : State).cfg.lowWrite = .allow := by decide

theorem test_witness_FetchSeesTheLastStore : 1 ≤ (1 : Reg).val ∧ (State.reset.setI 0x202).i = (State.reset.setI 0x202).pc + 2 ∧ 0x200 ≤ (State.reset.setI 0x202).i.toNat ∧
    (State.reset.setI 0x202).i.toNat + (1 : Reg).val < 4096 := by decide

theorem test_witness_DrawInvertsCoveredPixels : 15 < 16 ∧ (State.reset.setI 0xFF1).i.toNat + 15 ≤ 4096 ∧ (0 : Nat) = 0 ∧ 4096 < (State.reset.setI 0xFF2).i.toNat + 15 ∧ 0 < 15 := by decide

theorem test_witness_DrawInvertsCoveredPixels_covered : SpriteCovers State.reset 0 0 1 0 3 ∧ State.reset.pixel 0 3 = false := ⟨⟨0, 3, by decide⟩, by decide⟩

theorem test_witness_DrawTwiceRestores : (0 : Reg) ≠ 15 ∧ (14 : Reg) ≠ 15 ∧ (State.reset.setI 0xFF1).i.toNat + 15 ≤ 4096 := by decide

theorem test_witness_KeySkips_number : ((start 0 0xF 0).reg 1).toNat ≤ 0xF ∧ true = (withInput (start 0 0xF 0) 0x8000 0).input.keys.getLsbD 15 := by decide

theorem test_witness_KeySkips_policies : 0xF < ((start 0 0x10 0).reg 1).toNat ∧ (start 0 0x10 0).cfg.keyRange = .fault ∧
    ({ start 0 0x10 0 with cfg := ⟨Config.defaultFont, .fault, .lowNibble⟩ } : State).cfg.keyRange = .lowNibble ∧
    ({ start 0 0x10 0 with cfg := ⟨Config.defaultFont, .fault, .notDown⟩ } : State).cfg.keyRange = .notDown := by decide

theorem test_witness_WaitForKey : (withInput State.reset 0 0).input.keys = 0 ∧ (withInput State.reset 0x8000 0).input.keys ≠ 0 ∧
    (withInput State.reset 0x8000 0).input.keys.getLsbD (15 : Fin 16).val = true ∧
    ∀ j : Fin 16, j < 15 → (withInput State.reset 0x8000 0).input.keys.getLsbD j.val = false := by decide

theorem test_witness_KeyWaitOnlyTicks : fetches (State.reset.withFetchWord 16 0xF30A) (encodeXKK 0xF 3 0x0A) ∧
    ∀ op ∈ ([.cycle 0 4, .cycle 0 0] : List HostOp), ∃ rnd, op = .cycle 0 rnd := ⟨⟨rfl, rfl⟩, by simp⟩

theorem test_witness_FlagInstructionsLeaveZeroOrOne : State.reset.halted = false ∧ ∃ t, exec (.drw 0 1 5) State.reset = .next t ∧ t.halted = false := ⟨rfl, _, rfl, rfl⟩

theorem test_witness_GeneralRegisterWriters : (∃ t, exec (.addReg 1 2) State.reset = .next t) ∧ (3 : Reg) ∉ writtenRegs (.addReg 1 2) := ⟨⟨_, rfl⟩, by decide⟩

theorem test_witness_IndexAndStackWriters : (∃ t, exec (.ldI 5) State.reset = .next t ∧ t.i ≠ State.reset.i) ∧
    ∃ t, exec (.call 5) State.reset = .next t ∧ t.sp ≠ State.reset.sp ∧ ∃ j, t.entry j ≠ State.reset.entry j := ⟨⟨_, rfl, by decide⟩, _, rfl, by decide, 0, by decide⟩

theorem test_witness_MemoryWriters : ∃ t, exec (.ldBVx 1) (start 0x300 254 0) = .next t ∧ t.byteAt 0x302 ≠ (start 0x300 254 0).byteAt 0x302 := ⟨_, rfl, by decide⟩

theorem test_witness_DisplayWriters : ∃ t, exec (.drw 0 1 5) State.reset = .next t ∧ t.pixel 0 0 ≠ State.reset.pixel 0 0 := ⟨_, rfl, by decide⟩

theorem test_witness_LowMemoryNeverOverwritten : State.reset.cfg.lowWrite = .fault ∧ (∃ t, step State.reset = .next t) ∧ 0x1FF < 0x200 := ⟨rfl, ⟨_, rfl⟩, by decide⟩

theorem test_witness_InputsReadOnlyByKeyAndRandom : (∀ x : Reg, Instr.cls ≠ .skp x ∧ Instr.cls ≠ .sknp x ∧ Instr.cls ≠ .ldVxK x ∧ ∀ kk, Instr.cls ≠ .rnd x kk) ∧
    ∃ t, exec .cls State.reset = .next t := ⟨by simp, _, rfl⟩

theorem test_witness_SoundTimerAndFaultRecordAreNotRead : ∃ t, exec (.ldSTVx 1) State.reset = .next t := ⟨_, rfl⟩

/-- The invariant is met right after reset, and by a state with written memory, a full stack and PC at its bound. -/
theorem test_witness_StepKeepsInvariant : State.reset.Inv ∧ (∃ t, step State.reset = .next t) ∧
    State.Inv { withBytes State.reset 0x300 [1, 2] with sp := 16, stack := Vector.replicate 16 0x1000, pc := 0x10FE } :=
  ⟨⟨by decide, by decide, by decide, by decide, by decide⟩, ⟨_, rfl⟩, ⟨by decide, by decide, by decide, by decide, by decide⟩⟩

theorem test_witness_OperationsKeepInvariant : State.reset.Inv := ⟨by decide, by decide, by decide, by decide, by decide⟩

theorem test_witness_ResetGivesTheResetValues : (∃ t, t = ({ State.reset with faultCode := 3 }.perform .reset).2) ∧ State.reset = State.resetWith State.reset.cfg ∧ 79 < 80 ∧ 80 ≤ 80 := ⟨⟨_, rfl⟩, rfl, by decide, by decide⟩

theorem test_witness_LoadIsAllOrNothing : 3584 < (List.replicate 3585 (0 : Byte)).length ∧ (List.replicate 3584 (0 : Byte)).length ≤ 3584 ∧
    3583 < (List.replicate 3584 (0 : Byte)).length ∧ 0x1FF < 0x200 ∧ 0x200 + ([] : List Byte).length ≤ 0x200 := by
  simp only [List.length_replicate]; decide

theorem test_witness_OnlyResetLeavesTheHalt : ({ State.reset with faultCode := 7 } : State).halted = true ∧ HostOp.read ≠ .reset := by decide

theorem test_witness_CycleDeliversItsInputs : fetches (State.reset.withFetchWord 16 0xC10F) (encodeXKK 0xC 1 0x0F) ∧
    fetches (State.reset.withFetchWord 16 0xF30A) (encodeXKK 0xF 3 0x0A) ∧ (0x8000 : BitVec 16) = BitVec.twoPow 16 (15 : Fin 16).val := ⟨⟨rfl, rfl⟩, ⟨rfl, rfl⟩, by decide⟩

end Sys2Proof.Tests
end

namespace Sys2Proof.Proofs.Memory

open Sys2Proof Sys2Proof.Machine

/-- Settles O7 (rule R53): a PC with both its bytes in memory lies below 0xFFF, so the fetch answers the two bytes joined, and their
joined word has the value of its high byte times 256 plus its low byte. -/
theorem fetchIsBigEndian : Obligations.FetchIsBigEndian := by
  intro s hpc
  have hbelow : s.pc.toNat < 0xFFF := by omega
  exact ⟨_, State.fetch_ok hbelow, wordOfBytes_toNat _ _⟩

end Sys2Proof.Proofs.Memory

namespace Sys2Proof.Proofs.Encoding

open Sys2Proof Sys2Proof.Machine

/-! ## The value and the fields of a word built by its format (rules R71 and R72) -/

theorem nibbleOfReg_toNat (r : Reg) : (nibbleOfReg r).toNat = r.val := Nat.mod_eq_of_lt r.isLt

theorem append_toNat {a b : Nat} (hi : BitVec a) (lo : BitVec b) : (hi ++ lo).toNat = hi.toNat * 2 ^ b + lo.toNat := by
  rw [BitVec.toNat_append, ← Nat.shiftLeft_add_eq_or_of_lt lo.isLt, Nat.shiftLeft_eq]

theorem encodeNNN_toNat (f : BitVec 4) (nnn : Addr12) : (encodeNNN f nnn).toNat = f.toNat * 0x1000 + nnn.toNat :=
  append_toNat f nnn

theorem encodeXKK_toNat (f : BitVec 4) (x : Reg) (kk : Byte) :
    (encodeXKK f x kk).toNat = f.toNat * 0x1000 + 0x100 * x.val + kk.toNat := by
  rw [encodeXKK, append_toNat (f ++ nibbleOfReg x) kk, append_toNat, nibbleOfReg_toNat]
  omega

theorem encodeXYN_toNat (f : BitVec 4) (x y : Reg) (n : BitVec 4) :
    (encodeXYN f x y n).toNat = f.toNat * 0x1000 + 0x100 * x.val + 0x10 * y.val + n.toNat := by
  rw [encodeXYN, append_toNat (f ++ nibbleOfReg x ++ nibbleOfReg y) n, append_toNat (f ++ nibbleOfReg x), append_toNat,
    nibbleOfReg_toNat, nibbleOfReg_toNat]
  omega

/-- A field of a word is the word divided by the field's place, modulo the field's size (rule R72). -/
theorem field_toNat (w : Word) (start len : Nat) : (w.extractLsb' start len).toNat = w.toNat / 2 ^ start % 2 ^ len := by
  rw [BitVec.extractLsb'_toNat, Nat.shiftRight_eq_div_pow]

theorem family_toNat (w : Word) : w.family.toNat = w.toNat / 0x1000 % 0x10 := field_toNat w 12 4

theorem x_val (w : Word) : w.x.val = w.toNat / 0x100 % 0x10 := field_toNat w 8 4

theorem y_val (w : Word) : w.y.val = w.toNat / 0x10 % 0x10 := field_toNat w 4 4

theorem n_toNat (w : Word) : w.n.toNat = w.toNat % 0x10 := by simp [Word.n]

theorem kk_toNat (w : Word) : w.kk.toNat = w.toNat % 0x100 := by simp [Word.kk]

theorem nnn_toNat (w : Word) : w.nnn.toNat = w.toNat % 0x1000 := by simp [Word.nnn]

/-! ## Each field of a word built by its format is read back -/

@[simp] theorem encodeNNN_family (f : BitVec 4) (nnn : Addr12) : (encodeNNN f nnn).family = f :=
  BitVec.eq_of_toNat_eq (by rw [family_toNat, encodeNNN_toNat]; omega)

@[simp] theorem encodeNNN_nnn (f : BitVec 4) (nnn : Addr12) : (encodeNNN f nnn).nnn = nnn :=
  BitVec.eq_of_toNat_eq (by rw [nnn_toNat, encodeNNN_toNat]; omega)

@[simp] theorem encodeXKK_family (f : BitVec 4) (x : Reg) (kk : Byte) : (encodeXKK f x kk).family = f :=
  BitVec.eq_of_toNat_eq (by rw [family_toNat, encodeXKK_toNat]; omega)

@[simp] theorem encodeXKK_x (f : BitVec 4) (x : Reg) (kk : Byte) : (encodeXKK f x kk).x = x :=
  Fin.ext (by rw [x_val, encodeXKK_toNat]; omega)

@[simp] theorem encodeXKK_kk (f : BitVec 4) (x : Reg) (kk : Byte) : (encodeXKK f x kk).kk = kk :=
  BitVec.eq_of_toNat_eq (by rw [kk_toNat, encodeXKK_toNat]; omega)

@[simp] theorem encodeXYN_family (f : BitVec 4) (x y : Reg) (n : BitVec 4) : (encodeXYN f x y n).family = f :=
  BitVec.eq_of_toNat_eq (by rw [family_toNat, encodeXYN_toNat]; omega)

@[simp] theorem encodeXYN_x (f : BitVec 4) (x y : Reg) (n : BitVec 4) : (encodeXYN f x y n).x = x :=
  Fin.ext (by rw [x_val, encodeXYN_toNat]; omega)

@[simp] theorem encodeXYN_y (f : BitVec 4) (x y : Reg) (n : BitVec 4) : (encodeXYN f x y n).y = y :=
  Fin.ext (by rw [y_val, encodeXYN_toNat]; omega)

@[simp] theorem encodeXYN_n (f : BitVec 4) (x y : Reg) (n : BitVec 4) : (encodeXYN f x y n).n = n :=
  BitVec.eq_of_toNat_eq (by rw [n_toNat, encodeXYN_toNat]; omega)

/-! ## The families that select by a field, the field read as a number

Each match is over literals, so in every case the field's value decides each test of the chain. -/

/-- Family 0x0 (rule R75), by w[11:0]. -/
theorem decodeFamily0_eq (low : Addr12) : decodeFamily0 low =
    if low.toNat = 0x0E0 then some .cls else if low.toNat = 0x0EE then some .ret else none := by
  unfold decodeFamily0
  split <;> simp_all [← BitVec.toNat_inj]

/-- Family 0x8 (rule R78), by n. -/
theorem decodeFamily8_eq (w : Word) : decodeFamily8 w =
    if w.n.toNat = 0x0 then some (.ldReg w.x w.y) else if w.n.toNat = 0x1 then some (.orReg w.x w.y)
    else if w.n.toNat = 0x2 then some (.andReg w.x w.y) else if w.n.toNat = 0x3 then some (.xorReg w.x w.y)
    else if w.n.toNat = 0x4 then some (.addReg w.x w.y) else if w.n.toNat = 0x5 then some (.subReg w.x w.y)
    else if w.n.toNat = 0x6 then some (.shr w.x w.y) else if w.n.toNat = 0x7 then some (.subnReg w.x w.y)
    else if w.n.toNat = 0xE then some (.shl w.x w.y) else none := by
  unfold decodeFamily8
  split <;> simp_all [← BitVec.toNat_inj]

/-- Family 0xE (rule R79), by kk. -/
theorem decodeFamilyE_eq (w : Word) : decodeFamilyE w =
    if w.kk.toNat = 0x9E then some (.skp w.x) else if w.kk.toNat = 0xA1 then some (.sknp w.x) else none := by
  unfold decodeFamilyE
  split <;> simp_all [← BitVec.toNat_inj]

/-- Family 0xF (rule R80), by kk. -/
theorem decodeFamilyF_eq (w : Word) : decodeFamilyF w =
    if w.kk.toNat = 0x07 then some (.ldVxDT w.x) else if w.kk.toNat = 0x0A then some (.ldVxK w.x)
    else if w.kk.toNat = 0x15 then some (.ldDTVx w.x) else if w.kk.toNat = 0x18 then some (.ldSTVx w.x)
    else if w.kk.toNat = 0x1E then some (.addIVx w.x) else if w.kk.toNat = 0x29 then some (.ldFVx w.x)
    else if w.kk.toNat = 0x33 then some (.ldBVx w.x) else if w.kk.toNat = 0x55 then some (.ldMemVx w.x)
    else if w.kk.toNat = 0x65 then some (.ldVxMem w.x) else none := by
  unfold decodeFamilyF
  split <;> simp_all [← BitVec.toNat_inj]

/-! ## What a word of each family decodes to (rules R75 to R80) -/

theorem decodeWord_family0 (nnn : Addr12) : decodeWord (encodeNNN 0x0#4 nnn) =
    if nnn.toNat = 0x0E0 then some .cls else if nnn.toNat = 0x0EE then some .ret else none := by
  simp [decodeWord, decodeFamily0_eq]

@[simp] theorem decodeWord_family1 (nnn : Addr12) : decodeWord (encodeNNN 0x1#4 nnn) = some (.jp nnn) := by
  simp [decodeWord]

@[simp] theorem decodeWord_family2 (nnn : Addr12) : decodeWord (encodeNNN 0x2#4 nnn) = some (.call nnn) := by
  simp [decodeWord]

@[simp] theorem decodeWord_family3 (x : Reg) (kk : Byte) : decodeWord (encodeXKK 0x3#4 x kk) = some (.seByte x kk) := by
  simp [decodeWord]

@[simp] theorem decodeWord_family4 (x : Reg) (kk : Byte) : decodeWord (encodeXKK 0x4#4 x kk) = some (.sneByte x kk) := by
  simp [decodeWord]

theorem decodeWord_family5 (x y : Reg) (n : BitVec 4) :
    decodeWord (encodeXYN 0x5#4 x y n) = if n.toNat = 0 then some (.seReg x y) else none := by
  simp [decodeWord, ← BitVec.toNat_inj]

@[simp] theorem decodeWord_family6 (x : Reg) (kk : Byte) : decodeWord (encodeXKK 0x6#4 x kk) = some (.ldByte x kk) := by
  simp [decodeWord]

@[simp] theorem decodeWord_family7 (x : Reg) (kk : Byte) : decodeWord (encodeXKK 0x7#4 x kk) = some (.addByte x kk) := by
  simp [decodeWord]

theorem decodeWord_family8 (x y : Reg) (n : BitVec 4) : decodeWord (encodeXYN 0x8#4 x y n) =
    if n.toNat = 0x0 then some (.ldReg x y) else if n.toNat = 0x1 then some (.orReg x y)
    else if n.toNat = 0x2 then some (.andReg x y) else if n.toNat = 0x3 then some (.xorReg x y)
    else if n.toNat = 0x4 then some (.addReg x y) else if n.toNat = 0x5 then some (.subReg x y)
    else if n.toNat = 0x6 then some (.shr x y) else if n.toNat = 0x7 then some (.subnReg x y)
    else if n.toNat = 0xE then some (.shl x y) else none := by
  simp [decodeWord, decodeFamily8_eq]

theorem decodeWord_family9 (x y : Reg) (n : BitVec 4) :
    decodeWord (encodeXYN 0x9#4 x y n) = if n.toNat = 0 then some (.sneReg x y) else none := by
  simp [decodeWord, ← BitVec.toNat_inj]

@[simp] theorem decodeWord_familyA (nnn : Addr12) : decodeWord (encodeNNN 0xA#4 nnn) = some (.ldI nnn) := by
  simp [decodeWord]

@[simp] theorem decodeWord_familyB (nnn : Addr12) : decodeWord (encodeNNN 0xB#4 nnn) = some (.jpV0 nnn) := by
  simp [decodeWord]

@[simp] theorem decodeWord_familyC (x : Reg) (kk : Byte) : decodeWord (encodeXKK 0xC#4 x kk) = some (.rnd x kk) := by
  simp [decodeWord]

@[simp] theorem decodeWord_familyD (x y : Reg) (n : BitVec 4) : decodeWord (encodeXYN 0xD#4 x y n) = some (.drw x y n.toNat) := by
  simp [decodeWord]

theorem decodeWord_familyE (x : Reg) (kk : Byte) : decodeWord (encodeXKK 0xE#4 x kk) =
    if kk.toNat = 0x9E then some (.skp x) else if kk.toNat = 0xA1 then some (.sknp x) else none := by
  simp [decodeWord, decodeFamilyE_eq]

theorem decodeWord_familyF (x : Reg) (kk : Byte) : decodeWord (encodeXKK 0xF#4 x kk) =
    if kk.toNat = 0x07 then some (.ldVxDT x) else if kk.toNat = 0x0A then some (.ldVxK x)
    else if kk.toNat = 0x15 then some (.ldDTVx x) else if kk.toNat = 0x18 then some (.ldSTVx x)
    else if kk.toNat = 0x1E then some (.addIVx x) else if kk.toNat = 0x29 then some (.ldFVx x)
    else if kk.toNat = 0x33 then some (.ldBVx x) else if kk.toNat = 0x55 then some (.ldMemVx x)
    else if kk.toNat = 0x65 then some (.ldVxMem x) else none := by
  simp [decodeWord, decodeFamilyF_eq]

/-! ## The words written as numbers -/

/-- A number below `2 ^ k` is the value of a field of `k` bits. -/
theorem exists_toNat_eq {k m : Nat} (h : m < 2 ^ k) : ∃ b : BitVec k, b.toNat = m := ⟨BitVec.ofNatLT m h, rfl⟩

theorem decodeWord_ofNat {w : Word} {m : Nat} {r : Option Instr} (hw : w.toNat = m) (hr : decodeWord w = r) :
    decodeWord (BitVec.ofNat 16 m) = r := by
  rw [← hw, BitVec.ofNat_toNat, BitVec.setWidth_eq, hr]

/-- Settles O3: a number of each family is the value of the word that the family's format builds from its fields, and the word is
decoded by the family's rule. -/
theorem opcodeMapByFamily : Obligations.OpcodeMapByFamily := by
  refine ⟨fun m hm => ?_, fun x m hm => ?_, fun x y m hm => ?_⟩
  · obtain ⟨nnn, rfl⟩ := exists_toNat_eq (k := 12) hm
    rw [BitVec.ofNat_toNat 12, BitVec.setWidth_eq]
    have value (f : BitVec 4) := encodeNNN_toNat f nnn
    exact ⟨decodeWord_ofNat ((value 0x0).trans (Nat.zero_add _)) (decodeWord_family0 nnn),
      decodeWord_ofNat (value 0x1) (decodeWord_family1 nnn), decodeWord_ofNat (value 0x2) (decodeWord_family2 nnn),
      decodeWord_ofNat (value 0xA) (decodeWord_familyA nnn), decodeWord_ofNat (value 0xB) (decodeWord_familyB nnn)⟩
  · obtain ⟨kk, rfl⟩ := exists_toNat_eq (k := 8) hm
    rw [BitVec.ofNat_toNat 8, BitVec.setWidth_eq]
    have value (f : BitVec 4) := encodeXKK_toNat f x kk
    exact ⟨decodeWord_ofNat (value 0x3) (decodeWord_family3 x kk), decodeWord_ofNat (value 0x4) (decodeWord_family4 x kk),
      decodeWord_ofNat (value 0x6) (decodeWord_family6 x kk), decodeWord_ofNat (value 0x7) (decodeWord_family7 x kk),
      decodeWord_ofNat (value 0xC) (decodeWord_familyC x kk), decodeWord_ofNat (value 0xE) (decodeWord_familyE x kk),
      decodeWord_ofNat (value 0xF) (decodeWord_familyF x kk)⟩
  · obtain ⟨n, rfl⟩ := exists_toNat_eq (k := 4) hm
    have value (f : BitVec 4) := encodeXYN_toNat f x y n
    exact ⟨decodeWord_ofNat (value 0x5) (decodeWord_family5 x y n), decodeWord_ofNat (value 0x9) (decodeWord_family9 x y n),
      decodeWord_ofNat (value 0xD) (decodeWord_familyD x y n), decodeWord_ofNat (value 0x8) (decodeWord_family8 x y n)⟩

end Sys2Proof.Proofs.Encoding

namespace Sys2Proof.Proofs.Cycle

open Sys2Proof Sys2Proof.Machine

/-! ## A cycle that does not fault -/

/-- An instruction that leaves the core running committed what its body made of the advanced and ticked state (rule R95). -/
theorem runBody_commits {body : State → Except Raised State} {s t : State} (h : runBody body s = .next t)
    (ht : t.halted = false) : body s.prologue = .ok t := by
  rcases runBody_next h with hok | ⟨r, _, rfl⟩
  · exact hok
  · simp at ht

/-- A step that leaves the core running ran the fetched word: an unknown one advances and ticks, an instruction runs. -/
theorem step_running {s t : State} {w : Word} (h : step s = .next t) (ht : t.halted = false) (hw : s.fetch = .ok w) :
    (decodeWord w = none ∧ t = s.prologue.takeInput) ∨
    ∃ i u, decodeWord w = some i ∧ exec i s = .next u ∧ u.halted = false ∧ t = u.takeInput := by
  rcases step_cases h with ⟨hs, rfl⟩ | ⟨_, _, rfl⟩ | ⟨w', _, hw', hd, rfl⟩ | ⟨w', i, u, _, hw', hd, hu, rfl⟩
  · simp [hs] at ht
  · simp at ht
  · cases hw.symm.trans hw'
    exact .inl ⟨hd, rfl⟩
  · cases hw.symm.trans hw'
    exact .inr ⟨i, u, hd, hu, ht, rfl⟩

/-! ## The timers (rule R91) -/

/-- DT at the end of a cycle from s that does not fault, by what its word decodes to. -/
def delayAfter : Option Instr → State → Byte
  | some (.ldDTVx x), s => s.reg x
  | _, s => tick s.dt

/-- ST at the end of a cycle from s that does not fault, by what its word decodes to. -/
def soundAfter : Option Instr → State → Byte
  | some (.ldSTVx x), s => s.reg x
  | _, s => tick s.st

theorem delayAfter_toNat {d : Option Instr} (h : ∀ x, d ≠ some (.ldDTVx x)) (s : State) :
    (delayAfter d s).toNat = s.dt.toNat - 1 := by
  unfold delayAfter
  split
  · exact absurd rfl (h _)
  · exact tick_toNat s.dt

theorem soundAfter_toNat {d : Option Instr} (h : ∀ x, d ≠ some (.ldSTVx x)) (s : State) :
    (soundAfter d s).toNat = s.st.toNat - 1 := by
  unfold soundAfter
  split
  · exact absurd rfl (h _)
  · exact tick_toNat s.st

theorem setRegs_timers (bs : List Byte) (s : State) (k : Nat) :
    (s.setRegs k bs).dt = s.dt ∧ (s.setRegs k bs).st = s.st := by
  obtain ⟨v, hv⟩ := State.setRegs_eq bs s k
  rw [hv]
  exact ⟨rfl, rfl⟩

theorem pop_timers {s t : State} {r : Raised} (h : s.pop r = .ok t) : t.dt = s.dt ∧ t.st = s.st := by
  rcases State.pop_cases s r with ⟨j, hj, _, hp⟩ | ⟨_, hp⟩
  · cases hp.symm.trans h
    exact ⟨rfl, rfl⟩
  · cases hp.symm.trans h

theorem push_timers {s t : State} {w : Word} {r : Raised} (h : s.push w r = .ok t) : t.dt = s.dt ∧ t.st = s.st := by
  rcases State.push_cases s w r with ⟨_, hp⟩ | ⟨_, hp⟩
  · cases hp.symm.trans h
    exact ⟨rfl, rfl⟩
  · cases hp.symm.trans h

theorem writeBytes_timers {s t : State} {a : Nat} {bs : List Byte} (hb : bs ≠ []) (h : s.writeBytes a bs = .ok t) :
    t.dt = s.dt ∧ t.st = s.st := by
  rcases State.writeBytes_cases s a hb with ⟨_, hp⟩ | ⟨_, hp⟩ | ⟨_, hp⟩
  · cases hp.symm.trans h
    exact ⟨rfl, rfl⟩
  · cases hp.symm.trans h
  · cases hp.symm.trans h

/-- Only Fx15 and Fx18 write a timer: after any other instruction both are as the tick left them. -/
theorem exec_timers {i : Instr} {s t : State} (h : exec i s = .next t) (ht : t.halted = false) :
    t.dt = delayAfter (some i) s ∧ t.st = soundAfter (some i) s := by
  unfold exec at h
  cases i with
  | ret => exact pop_timers (runBody_commits h ht)
  | call nnn =>
    have hbody := runBody_commits h ht
    split at hbody
    · cases hbody
    · rename_i u hu
      cases hbody
      exact push_timers hu
  | drw | skp | sknp =>
    have hbody := runBody_commits h ht
    split at hbody
    · cases hbody
    · cases hbody
      exact ⟨rfl, rfl⟩
  | ldVxK x =>
    have hbody := runBody_commits h ht
    cases hbody
    split <;> exact ⟨rfl, rfl⟩
  | ldBVx x => exact writeBytes_timers (by simp [bcdDigits]) (runBody_commits h ht)
  | ldMemVx x =>
    have hbody := runBody_commits h ht
    split at hbody
    · cases hbody
    · rename_i u hu
      cases hbody
      exact writeBytes_timers (List.ne_nil_of_length_eq_add_one (State.regBlock_length _ x)) hu
  | ldVxMem x =>
    have hbody := runBody_commits h ht
    split at hbody
    · cases hbody
    · rename_i bs _
      cases hbody
      exact setRegs_timers bs s.prologue 0
  | _ =>
    have hbody := runBody_commits h ht
    cases hbody
    exact ⟨rfl, rfl⟩

/-- The tick and the one timer write of a cycle that does not fault, for a known or an unknown word. -/
theorem step_timers {s t : State} {w : Word} (h : step s = .next t) (ht : t.halted = false) (hw : s.fetch = .ok w) :
    t.dt = delayAfter (decodeWord w) s ∧ t.st = soundAfter (decodeWord w) s := by
  rcases step_running h ht hw with ⟨hd, rfl⟩ | ⟨i, u, hd, hu, hrun, rfl⟩
  · rw [hd]
    exact ⟨rfl, rfl⟩
  · rw [hd]
    simpa using exec_timers hu hrun

/-- Fx07 (rule R137) reads DT as this cycle's tick left it. -/
theorem exec_ldVxDT (x : Reg) (s : State) : exec (.ldVxDT x) s = .next (s.prologue.setReg x (tick s.dt)) := rfl

theorem step_ldVxDT_reg {s t : State} {w : Word} {x : Reg} (h : step s = .next t) (ht : t.halted = false)
    (hw : s.fetch = .ok w) (hd : decodeWord w = some (.ldVxDT x)) : t.reg x = tick s.dt := by
  rcases step_running h ht hw with ⟨hnone, _⟩ | ⟨i, u, hi, hu, _, rfl⟩
  · cases hnone.symm.trans hd
  · cases hi.symm.trans hd
    cases (exec_ldVxDT x s).symm.trans hu
    simp

/-- Settles O14: the timers' values at the end of the cycle by what the word decodes to, and for Fx07 the ticked DT in Vx. -/
theorem timersTickOncePerCycle : Obligations.TimersTickOncePerCycle := by
  intro s t _ hstep ht w hw
  obtain ⟨hdt, hst⟩ := step_timers hstep ht hw
  refine ⟨fun x hd => ?_, fun x hd => ?_, fun x hd => ?_, fun hne => ?_, fun hne => ?_⟩
  · rw [hdt, hd, delayAfter]
  · rw [hst, hd, soundAfter]
  · rw [step_ldVxDT_reg hstep ht hw hd, tick_toNat]
  · rw [hdt, delayAfter_toNat hne]
  · rw [hst, soundAfter_toNat hne]

end Sys2Proof.Proofs.Cycle

namespace Sys2Proof.Proofs.Control

open Sys2Proof Sys2Proof.Machine

/-! ## The targets of the jumps and the call (rules R101, R102 and R107) -/

theorem addrOperand_le (nnn : Addr12) : (addrOperand nnn).toNat ≤ 0xFFF := by
  rw [addrOperand_toNat]
  omega

theorem addrOperand_eq (nnn : Addr12) : addrOperand nnn = BitVec.ofNat 16 nnn.toNat :=
  (BitVec.ofNat_toNat 16 nnn).symm

theorem jpV0_target_toNat (nnn : Addr12) (b : Byte) : (addrOperand nnn + zext16 b).toNat = nnn.toNat + b.toNat := by
  rw [BitVec.toNat_add, addrOperand_toNat, zext16_toNat]
  omega

/-! ## The invariant, one lemma per operation on the state -/

/-- The invariant speaks of memory under the configuration, PC, the stack entries and the fault record, and of nothing else. -/
theorem inv_of_unread {s : State} (h : s.Inv) {v : Vector Byte 16} {i : Word} {sp : Fin 17} {dt st : Byte} {fb : Screen}
    {inputs : List CycleInput} {draws : Nat} :
    State.Inv { s with v := v, i := i, sp := sp, dt := dt, st := st, fb := fb, inputs := inputs, draws := draws } :=
  ⟨h.memory, h.pc, h.stack, h.code, h.clear⟩

theorem inv_setPc {s : State} {w : Word} (h : s.Inv) (hw : w.toNat ≤ 0x10FE) : (s.setPc w).Inv :=
  ⟨h.memory, hw, h.stack, h.code, h.clear⟩

/-- A skip from a PC of at most 0x1000 stays within the bound of PC. -/
theorem inv_skipIf {s : State} (h : s.Inv) (hpc : s.pc.toNat ≤ 0x1000) (c : Bool) : (s.skipIf c).Inv := by
  refine inv_setPc h ?_
  cases c with
  | false => exact h.pc
  | true =>
    simp only [if_true, BitVec.toNat_add, BitVec.reduceToNat]
    omega

theorem inv_setMem {s : State} {m : Memory} (h : s.Inv) (hm : Memory.wf s.unlisted m) : (s.setMem m).Inv :=
  ⟨hm, h.pc, h.stack, h.code, h.clear⟩

theorem inv_writeBytes {s t : State} {a : Nat} {bs : List Byte} (h : s.Inv) (hb : bs ≠ [])
    (ht : s.writeBytes a bs = .ok t) : t.Inv := by
  rcases State.writeBytes_cases s a hb with ⟨⟨ha, _⟩, hw⟩ | ⟨_, hw⟩ | ⟨_, hw⟩
  · cases hw.symm.trans ht
    exact inv_setMem h (Memory.wf_writeAll _ bs h.memory ha)
  · cases hw.symm.trans ht
  · cases hw.symm.trans ht

/-- A push keeps the invariant when the address pushed is within the bound of a return address (rule R102). -/
theorem inv_push {s t : State} {w : Word} {r : Raised} (h : s.Inv) (hw : w.toNat ≤ 0x1000) (ht : s.push w r = .ok t) :
    t.Inv := by
  rcases State.push_cases s w r with ⟨hsp, hp⟩ | ⟨_, hp⟩
  · cases hp.symm.trans ht
    refine ⟨h.memory, h.pc, fun j => ?_, h.code, h.clear⟩
    rw [State.entry, entry_set]
    split
    · exact hw
    · exact h.stack j
  · cases hp.symm.trans ht

/-- A pop takes PC from the stack, whose entries lie below the bound of PC. -/
theorem inv_pop {s t : State} {r : Raised} (h : s.Inv) (ht : s.pop r = .ok t) : t.Inv := by
  rcases State.pop_cases s r with ⟨j, _, _, hp⟩ | ⟨_, hp⟩
  · cases hp.symm.trans ht
    exact ⟨h.memory, (h.stack j).trans (by decide), h.stack, h.code, h.clear⟩
  · cases hp.symm.trans ht

/-- The codes of rule R143 are 1 to 7. -/
theorem faultCode_range (k : FaultKind) : k.code ≠ 0 ∧ k.code.toNat ≤ 7 := by
  cases k <;> decide

/-- A fault sets the record, so nothing is claimed of a clear one. -/
theorem inv_raise {s : State} (h : s.Inv) (r : Raised) : (s.raise r).Inv := by
  obtain ⟨hne, hle⟩ := faultCode_range r.kind
  exact ⟨h.memory, h.pc, h.stack, hle, fun h0 => absurd h0 hne⟩

/-- The advance from a PC that can be fetched from (rules R88 and R90). -/
theorem advance_le {s : State} (hpc : s.pc.toNat < 0xFFF) : s.prologue.pc.toNat ≤ 0x1000 := by
  simp only [State.prologue_pc, BitVec.toNat_add, BitVec.reduceToNat]
  omega

theorem inv_prologue {s : State} (h : s.Inv) (hpc : s.pc.toNat < 0xFFF) : s.prologue.Inv :=
  ⟨h.memory, (advance_le hpc).trans (by decide), h.stack, h.code, h.clear⟩

theorem inv_runBody {body : State → Except Raised State} {s t : State} (h : s.Inv)
    (hbody : ∀ u, body s.prologue = .ok u → u.Inv) (ht : runBody body s = .next t) : t.Inv := by
  rcases runBody_next ht with hok | ⟨r, _, rfl⟩
  · exact hbody t hok
  · exact inv_raise h r

/-! ## The invariant, by instruction and by step -/

/-- Every body keeps the invariant from the advanced state: PC is there at most 0x1000, so a skip, a call and the jumps keep the
bounds, and the two stores write inside memory. -/
theorem inv_exec {i : Instr} {s t : State} (h : s.Inv) (hpc : s.pc.toNat < 0xFFF) (ht : exec i s = .next t) : t.Inv := by
  have hadv : s.prologue.Inv := inv_prologue h hpc
  have hle : s.prologue.pc.toNat ≤ 0x1000 := advance_le hpc
  unfold exec at ht
  cases i with
  | ret => exact inv_runBody h (fun u hu => inv_pop hadv hu) ht
  | jp nnn =>
    refine inv_runBody h (fun u hu => ?_) ht
    cases hu
    exact inv_setPc hadv ((addrOperand_le nnn).trans (by decide))
  | jpV0 nnn =>
    refine inv_runBody h (fun u hu => ?_) ht
    cases hu
    refine inv_setPc hadv ?_
    rw [jpV0_target_toNat]
    omega
  | call nnn =>
    refine inv_runBody h (fun u hu => ?_) ht
    split at hu
    · cases hu
    · rename_i pushed hp
      cases hu
      exact inv_setPc (inv_push hadv hle hp) ((addrOperand_le nnn).trans (by decide))
  | seByte | sneByte | seReg | sneReg =>
    refine inv_runBody h (fun u hu => ?_) ht
    cases hu
    exact inv_skipIf hadv hle _
  | skp | sknp =>
    refine inv_runBody h (fun u hu => ?_) ht
    split at hu
    · cases hu
    · cases hu
      exact inv_skipIf hadv hle _
  | ldVxK x =>
    refine inv_runBody h (fun u hu => ?_) ht
    cases hu
    split
    · refine inv_setPc hadv ?_
      rw [State.prologue_pc, BitVec.add_sub_cancel]
      exact h.pc
    · exact inv_of_unread hadv
  | ldBVx x => exact inv_runBody h (fun u hu => inv_writeBytes hadv (by simp [bcdDigits]) hu) ht
  | ldMemVx x =>
    refine inv_runBody h (fun u hu => ?_) ht
    split at hu
    · cases hu
    · rename_i stored hw
      cases hu
      exact inv_of_unread (inv_writeBytes hadv (List.ne_nil_of_length_eq_add_one (State.regBlock_length _ x)) hw)
  | ldVxMem x =>
    refine inv_runBody h (fun u hu => ?_) ht
    split at hu
    · cases hu
    · rename_i bs _
      cases hu
      obtain ⟨v, hv⟩ := State.setRegs_eq bs s.prologue 0
      rw [hv]
      exact inv_of_unread hadv
  | drw x y n =>
    refine inv_runBody h (fun u hu => ?_) ht
    split at hu
    · cases hu
    · cases hu
      exact inv_of_unread hadv
  | _ =>
    refine inv_runBody h (fun u hu => ?_) ht
    cases hu
    exact inv_of_unread hadv

/-- Settles O49, by the four cases of a step; a word was fetched only from a PC below 0xFFF, and using up the input changes nothing
the invariant speaks of. -/
theorem stepKeepsInvariant : Obligations.StepKeepsInvariant := by
  intro s t h hstep
  rcases step_cases hstep with ⟨_, rfl⟩ | ⟨_, _, rfl⟩ | ⟨w, _, hw, _, rfl⟩ | ⟨w, i, u, _, hw, _, hu, rfl⟩
  · exact inv_of_unread h
  · exact inv_of_unread (inv_raise h _)
  · exact inv_of_unread (inv_prologue h (State.fetch_eq_ok hw).1)
  · exact inv_of_unread (inv_exec h (State.fetch_eq_ok hw).1 hu)

/-! ## Frames of the control transfers -/

/-- The advance and the tick leave every piece as the cycle itself does (rules R90 and R91). -/
theorem prologue_kept (s : State) (p : Piece) : p.kept s s.prologue := by
  cases p with
  | delay => exact tick_toNat s.dt
  | sound => exact tick_toNat s.st
  | display => exact fun _ _ => rfl
  | faultRecord => exact ⟨rfl, rfl, rfl⟩
  | inputs => exact ⟨rfl, rfl⟩
  | _ => rfl

theorem setPc_onlyWrites (s : State) (w : Word) : OnlyWrites [.pc] s (s.prologue.setPc w) := by
  intro p hp
  have hkept := prologue_kept s p
  cases p with
  | pc => simp at hp
  | _ => exact hkept

/-! ## Jumps -/

theorem exec_jp (nnn : Addr12) (s : State) : exec (.jp nnn) s = .next (s.prologue.setPc (addrOperand nnn)) := rfl

theorem exec_jpV0 (nnn : Addr12) (s : State) :
    exec (.jpV0 nnn) s = .next (s.prologue.setPc (addrOperand nnn + zext16 (s.reg 0))) := rfl

/-- Settles O16: both jumps are one write of PC after the advance and the tick. -/
theorem jumpsSetPc : Obligations.JumpsSetPc := fun nnn =>
  ⟨Encoding.decodeWord_family1 nnn, Encoding.decodeWord_familyB nnn, fun s =>
    ⟨⟨_, exec_jp nnn s, addrOperand_toNat nnn, setPc_onlyWrites s _⟩,
      ⟨_, exec_jpV0 nnn s, jpV0_target_toNat nnn (s.reg 0), setPc_onlyWrites s _⟩⟩⟩

/-! ## Call and return -/

/-- The state a call leaves, with j entries before it (rule R102). -/
def called (s : State) (j : Fin 16) (nnn : Addr12) : State :=
  { s.prologue with stack := s.stack.set j.val (s.pc + 2), sp := j.succ, pc := addrOperand nnn }

/-- The state a return leaves, with j + 1 entries before it (rule R100). -/
def returned (s : State) (j : Fin 16) : State := { s.prologue with sp := j.castSucc, pc := s.entry j }

theorem called_entry (s : State) (j : Fin 16) (nnn : Addr12) (k : Fin 16) :
    (called s j nnn).entry k = if k = j then s.pc + 2 else s.entry k := by
  simp only [Fin.ext_iff]
  exact entry_set s.stack j.val j.isLt (s.pc + 2) k

theorem called_onlyWrites (s : State) (j : Fin 16) (nnn : Addr12) :
    OnlyWrites [.entry j, .stackPointer, .pc] s (called s j nnn) := by
  intro p hp
  have hkept := prologue_kept s p
  cases p with
  | pc | stackPointer => simp at hp
  | entry k =>
    have hk : k ≠ j := by simpa using hp
    exact (called_entry s j nnn k).trans (if_neg hk)
  | _ => exact hkept

theorem returned_onlyWrites (s : State) (j : Fin 16) : OnlyWrites [.stackPointer, .pc] s (returned s j) := by
  intro p hp
  have hkept := prologue_kept s p
  cases p with
  | pc | stackPointer => simp at hp
  | _ => exact hkept

theorem exec_call {s : State} {j : Fin 16} (h : s.sp.val = j.val) (nnn : Addr12) :
    exec (.call nnn) s = .next (called s j nnn) := by
  obtain ⟨k, hk⟩ := j
  subst h
  unfold exec
  refine runBody_ok ?_
  rw [State.push_ok (s := s.prologue) hk]
  rfl

theorem exec_call_full {s : State} (h : s.sp.val = 16) (nnn : Addr12) :
    exec (.call nnn) s = .next (s.raise ⟨.stackOverflow, addrOperand nnn⟩) := by
  unfold exec
  refine runBody_error ?_
  rw [State.push_full (s := s.prologue) h]

theorem exec_ret {s : State} {j : Fin 16} (h : s.sp.val = j.val + 1) : exec .ret s = .next (returned s j) := by
  unfold exec
  refine runBody_ok ?_
  rcases State.pop_cases s.prologue ⟨.stackUnderflow, 0⟩ with ⟨k, _, hk, hp⟩ | ⟨h0, _⟩
  · have hkj : k = j := Fin.ext (Nat.succ.inj (hk.symm.trans h))
    subst hkj
    exact hp
  · exact absurd (h.symm.trans h0) (Nat.succ_ne_zero _)

theorem exec_ret_empty {s : State} (h : s.sp.val = 0) : exec .ret s = .next (s.raise ⟨.stackUnderflow, 0⟩) := by
  unfold exec
  refine runBody_error ?_
  rcases State.pop_cases s.prologue ⟨.stackUnderflow, 0⟩ with ⟨k, _, hk, _⟩ | ⟨_, hp⟩
  · exact absurd (hk.symm.trans h) (Nat.succ_ne_zero _)
  · exact hp

/-- Settles O15, by the two outcomes of a pop. -/
theorem returnPopsOrFaults : Obligations.ReturnPopsOrFaults :=
  ⟨by decide, fun s =>
    ⟨fun j h => ⟨returned s j, exec_ret h, rfl, rfl, returned_onlyWrites s j⟩, exec_ret_empty⟩⟩

/-- Settles O17, by the two outcomes of a push. -/
theorem callPushesOrFaults : Obligations.CallPushesOrFaults := by
  refine fun nnn => ⟨Encoding.decodeWord_family2 nnn, fun s => ⟨fun j h => ?_, fun h => ?_⟩⟩
  · exact ⟨called s j nnn, exec_call h nnn, (called_entry s j nnn j).trans (if_pos rfl), rfl, addrOperand_toNat nnn,
      called_onlyWrites s j nnn⟩
  · rw [exec_call_full h, addrOperand_eq]

/-- Settles O19: the return pops the entry the call wrote, which u still holds, and takes the stack pointer back. -/
theorem returnUndoesCall : Obligations.ReturnUndoesCall := by
  intro nnn s hsp
  obtain ⟨j, hj⟩ : ∃ j : Fin 16, s.sp.val = j.val := ⟨⟨s.sp.val, hsp⟩, rfl⟩
  refine ⟨called s j nnn, exec_call hj nnn, fun u hu hstack => ?_⟩
  have hret : exec .ret u = .next (returned u j) := exec_ret (congrArg Fin.val hu)
  have hentry : u.entry j = s.pc + 2 := by rw [hstack, called_entry, if_pos rfl]
  exact ⟨returned u j, hret, hentry, Fin.ext hj.symm⟩

/-! ## Skips -/

/-- A skip moves PC by 4 when its condition holds and by 2 otherwise, and writes nothing else. -/
theorem skipIf_spec (s : State) {c : Bool} {p : Prop} [Decidable p] (h : c = true ↔ p) :
    (s.prologue.skipIf c).pc = s.pc + (if p then 4 else 2) ∧ OnlyWrites [.pc] s (s.prologue.skipIf c) := by
  refine ⟨?_, setPc_onlyWrites s _⟩
  by_cases hp : p
  · rw [if_pos hp, h.mpr hp]
    exact BitVec.add_assoc s.pc 2 2
  · rw [if_neg hp, Bool.eq_false_iff.mpr (mt h.mp hp)]
    rfl

theorem exec_seByte (x : Reg) (kk : Byte) (s : State) :
    exec (.seByte x kk) s = .next (s.prologue.skipIf (s.reg x == kk)) := rfl

theorem exec_sneByte (x : Reg) (kk : Byte) (s : State) :
    exec (.sneByte x kk) s = .next (s.prologue.skipIf (s.reg x != kk)) := rfl

theorem exec_seReg (x y : Reg) (s : State) :
    exec (.seReg x y) s = .next (s.prologue.skipIf (s.reg x == s.reg y)) := rfl

theorem exec_sneReg (x y : Reg) (s : State) :
    exec (.sneReg x y) s = .next (s.prologue.skipIf (s.reg x != s.reg y)) := rfl

/-- Settles O18: each of the four is the one skip on its own condition. -/
theorem skipsCompareAndSkip : Obligations.SkipsCompareAndSkip := by
  intro x y kk
  refine ⟨Encoding.decodeWord_family3 x kk, Encoding.decodeWord_family4 x kk, Encoding.decodeWord_family5 x y 0,
    Encoding.decodeWord_family9 x y 0, fun n hn => ?_, fun s => ⟨?_, ?_, ?_, ?_⟩⟩
  · have hn' : n.toNat ≠ 0 := fun h0 => hn (BitVec.eq_of_toNat_eq h0)
    exact ⟨(Encoding.decodeWord_family5 x y n).trans (if_neg hn'), (Encoding.decodeWord_family9 x y n).trans (if_neg hn')⟩
  · exact ⟨_, exec_seByte x kk s, skipIf_spec s beq_iff_eq⟩
  · exact ⟨_, exec_sneByte x kk s, skipIf_spec s bne_iff_ne⟩
  · exact ⟨_, exec_seReg x y s, skipIf_spec s beq_iff_eq⟩
  · exact ⟨_, exec_sneReg x y s, skipIf_spec s bne_iff_ne⟩

/-! ## Cycles that only tick -/

/-- The state after a cycle that changes only the timers; the draw counter is the model's own (assumption 1). -/
def ticked (s : State) : State := { s with dt := tick s.dt, st := tick s.st, draws := s.draws + 1 }

theorem ticked_iterate (n : Nat) (s : State) :
    ticked^[n] s = { s with dt := tick^[n] s.dt, st := tick^[n] s.st, draws := s.draws + n } := by
  induction n generalizing s with
  | zero => rfl
  | succ n ih =>
    rw [Function.iterate_succ_apply, ih]
    simp only [ticked, Function.iterate_succ_apply, Nat.add_assoc, Nat.add_comm 1]

theorem tick_iterate_toNat (n : Nat) (b : Byte) : (tick^[n] b).toNat = b.toNat - n := by
  induction n with
  | zero => rfl
  | succ n ih => rw [Function.iterate_succ_apply', tick_toNat, ih, Nat.sub_sub]

/-- P holds after a tick wherever it holds, and each of the operations only ticks from such a state; so the whole list only ticks. -/
theorem performAll_ticks {P : State → Prop} (hP : ∀ s, P s → P (ticked s)) : ∀ (ops : List HostOp) (s : State), P s →
    (∀ op ∈ ops, ∀ u, P u → (u.perform op).2 = ticked u) → s.performAll ops = ticked^[ops.length] s
  | [], _, _, _ => rfl
  | op :: ops, s, hs, hop => by
    obtain ⟨hfirst, hrest⟩ := List.forall_mem_cons.mp hop
    rw [State.performAll, hfirst s hs, performAll_ticks hP ops (ticked s) (hP s hs) hrest]
    rfl

/-- A host's cycle of a running core whose word decodes: the instruction runs with the cycle's K and RND next among the inputs. -/
theorem perform_cycle_runs {s t : State} {w : Word} {i : Instr} {k : BitVec 16} {rnd : Byte} (hrun : s.halted = false)
    (hw : s.fetch = .ok w) (hd : decodeWord w = some i)
    (hx : exec i { s with inputs := ⟨k, rnd⟩ :: s.inputs } = .next t) : (s.perform (.cycle k rnd)).2 = t.takeInput := by
  have hrun' : State.halted { s with inputs := ⟨k, rnd⟩ :: s.inputs } = false := hrun
  have hw' : State.fetch { s with inputs := ⟨k, rnd⟩ :: s.inputs } = .ok w := hw
  simp [State.perform, cycle, hrun', hw', hd, hx, endCycle, stateAfter]

/-- A running core at a jump to its own address. -/
def AtSelfJump (nnn : Addr12) (s : State) : Prop :=
  s.halted = false ∧ s.fetch = .ok (encodeNNN 0x1 nnn) ∧ nnn.toNat = s.pc.toNat

theorem atSelfJump_ticked {nnn : Addr12} (s : State) (h : AtSelfJump nnn s) : AtSelfJump nnn (ticked s) := h

theorem perform_cycle_selfJump {nnn : Addr12} {s : State} (h : AtSelfJump nnn s) (k : BitVec 16) (rnd : Byte) :
    (s.perform (.cycle k rnd)).2 = ticked s := by
  obtain ⟨hrun, hw, hpc⟩ := h
  have htarget : addrOperand nnn = s.pc := BitVec.eq_of_toNat_eq ((addrOperand_toNat nnn).trans hpc)
  rw [perform_cycle_runs hrun hw (Encoding.decodeWord_family1 nnn) (exec_jp nnn _), htarget]
  rfl

/-- Settles O20: every cycle of a self-jump only ticks and leaves the core at the self-jump, and so does any number of them. -/
theorem selfJumpOnlyTicks : Obligations.SelfJumpOnlyTicks := by
  intro s nnn ops hrun hw hpc hops
  have hall : s.performAll ops = ticked^[ops.length] s :=
    performAll_ticks atSelfJump_ticked ops s ⟨hrun, hw, hpc⟩ (fun op hop u hu => by
      obtain ⟨k, rnd, rfl⟩ := hops op hop
      exact perform_cycle_selfJump hu k rnd)
  rw [ticked_iterate] at hall
  exact ⟨_, hall, rfl, tick_iterate_toNat _ s.dt, tick_iterate_toNat _ s.st⟩

end Sys2Proof.Proofs.Control

namespace Sys2Proof.Proofs.Alu

open Sys2Proof Sys2Proof.Machine

/-! ## The frames of a register write and of a register write with a flag -/

theorem setReg_onlyWrites (s : State) (x : Reg) (b : Byte) : OnlyWrites [.reg x] s (s.prologue.setReg x b) := by
  intro p hp
  have hkept := Control.prologue_kept s p
  cases p with
  | reg r =>
    have hr : r ≠ x := by simpa using hp
    exact State.setReg_reg_ne _ b hr
  | _ => exact hkept

/-- Rule R93: VF is written last, so it holds the flag, also for x = F. -/
theorem setWithFlag_reg_vf (s : State) (x : Reg) (result flag : Byte) : (s.setWithFlag x result flag).reg 15 = flag :=
  State.setReg_reg_self _ _ _

theorem setWithFlag_reg_self (s : State) {x : Reg} (hx : x ≠ 15) (result flag : Byte) :
    (s.setWithFlag x result flag).reg x = result :=
  (State.setReg_reg_ne _ flag hx).trans (State.setReg_reg_self s x result)

theorem setWithFlag_onlyWrites (s : State) (x : Reg) (result flag : Byte) :
    OnlyWrites [.reg x, .reg 15] s (s.prologue.setWithFlag x result flag) := by
  intro p hp
  have hkept := Control.prologue_kept s p
  cases p with
  | reg r =>
    obtain ⟨hx, hvf⟩ : r ≠ x ∧ r ≠ 15 := by simpa using hp
    exact (State.setReg_reg_ne _ flag hvf).trans (State.setReg_reg_ne _ result hx)
  | _ => exact hkept

/-! ## The flags as arithmetic on the entry values (rules R115 to R119) -/

theorem carryFlag_eq (a b : Byte) : carryFlag a b = if a.toNat + b.toNat > 255 then 1 else 0 := by
  simp [carryFlag, flagByte]

theorem greaterFlag_eq (a b : Byte) : greaterFlag a b = if a.toNat > b.toNat then 1 else 0 := by
  simp [greaterFlag, flagByte]

theorem flagByte_toNat (c : Bool) : (flagByte c).toNat = c.toNat := by
  cases c <;> rfl

theorem lowBitFlag_toNat (a : Byte) : (lowBitFlag a).toNat = a.toNat % 2 := by
  rw [lowBitFlag, flagByte_toNat, BitVec.getLsbD, Nat.toNat_testBit, pow_zero, Nat.div_one]

/-- Bit 7 is the highest bit of a byte, so the quotient by 128 is that bit. -/
theorem highBitFlag_toNat (a : Byte) : (highBitFlag a).toNat = a.toNat / 128 := by
  rw [highBitFlag, flagByte_toNat, BitVec.getLsbD, Nat.toNat_testBit]
  omega

/-! ## Differences and shifts as numbers (rules R116 to R119) -/

theorem sub_toNat (a b : Byte) : (a - b).toNat = (a.toNat + 256 - b.toNat) % 256 := by
  rw [BitVec.toNat_sub]
  omega

theorem shiftRight_one_toNat (a : Byte) : (a >>> 1).toNat = a.toNat / 2 := by
  rw [BitVec.toNat_ushiftRight, Nat.shiftRight_one]

theorem shiftLeft_one_toNat (a : Byte) : (a <<< 1).toNat = a.toNat * 2 % 256 := by
  rw [BitVec.toNat_shiftLeft, Nat.shiftLeft_eq, pow_one]

/-! ## What each instruction makes of the state, from the values on entry -/

theorem exec_ldByte (x : Reg) (kk : Byte) (s : State) : exec (.ldByte x kk) s = .next (s.prologue.setReg x kk) := rfl

theorem exec_addByte (x : Reg) (kk : Byte) (s : State) :
    exec (.addByte x kk) s = .next (s.prologue.setReg x (s.reg x + kk)) := rfl

theorem exec_ldReg (x y : Reg) (s : State) : exec (.ldReg x y) s = .next (s.prologue.setReg x (s.reg y)) := rfl

theorem exec_orReg (x y : Reg) (s : State) :
    exec (.orReg x y) s = .next (s.prologue.setReg x (s.reg x ||| s.reg y)) := rfl

theorem exec_andReg (x y : Reg) (s : State) :
    exec (.andReg x y) s = .next (s.prologue.setReg x (s.reg x &&& s.reg y)) := rfl

theorem exec_xorReg (x y : Reg) (s : State) :
    exec (.xorReg x y) s = .next (s.prologue.setReg x (s.reg x ^^^ s.reg y)) := rfl

theorem exec_addReg (x y : Reg) (s : State) : exec (.addReg x y) s =
    .next (s.prologue.setWithFlag x (s.reg x + s.reg y) (carryFlag (s.reg x) (s.reg y))) := rfl

theorem exec_subReg (x y : Reg) (s : State) : exec (.subReg x y) s =
    .next (s.prologue.setWithFlag x (s.reg x - s.reg y) (greaterFlag (s.reg x) (s.reg y))) := rfl

theorem exec_shr (x y : Reg) (s : State) :
    exec (.shr x y) s = .next (s.prologue.setWithFlag x (s.reg x >>> 1) (lowBitFlag (s.reg x))) := rfl

theorem exec_subnReg (x y : Reg) (s : State) : exec (.subnReg x y) s =
    .next (s.prologue.setWithFlag x (s.reg y - s.reg x) (greaterFlag (s.reg y) (s.reg x))) := rfl

theorem exec_shl (x y : Reg) (s : State) :
    exec (.shl x y) s = .next (s.prologue.setWithFlag x (s.reg x <<< 1) (highBitFlag (s.reg x))) := rfl

theorem exec_rnd (x : Reg) (kk : Byte) (s : State) :
    exec (.rnd x kk) s = .next (s.prologue.setReg x (s.input.rnd &&& kk)) := rfl

/-! ## The obligations -/

/-- Settles O21: each is one register write, of kk or of the sum. -/
theorem loadAndAddImmediate : Obligations.LoadAndAddImmediate := by
  refine fun x kk => ⟨Encoding.decodeWord_family6 x kk, Encoding.decodeWord_family7 x kk, fun s => ⟨?_, ?_⟩⟩
  · exact ⟨_, exec_ldByte x kk s, State.setReg_reg_self _ x kk, setReg_onlyWrites s x _⟩
  · refine ⟨_, exec_addByte x kk s, ?_, setReg_onlyWrites s x _⟩
    rw [State.setReg_reg_self, BitVec.toNat_add]

/-- Settles O22: each is one register write, whose bits are those of the library's bitwise operation. -/
theorem copyAndBitwise : Obligations.CopyAndBitwise := by
  intro x y
  have hdecode := Encoding.decodeWord_family8 x y
  refine ⟨hdecode 0x0, hdecode 0x1, hdecode 0x2, hdecode 0x3, fun s => ⟨?_, ?_, ?_, ?_⟩⟩
  · exact ⟨_, exec_ldReg x y s, State.setReg_reg_self _ x _, setReg_onlyWrites s x _⟩
  · refine ⟨_, exec_orReg x y s, fun b => ?_, setReg_onlyWrites s x _⟩
    rw [State.setReg_reg_self, BitVec.getLsbD_or]
  · refine ⟨_, exec_andReg x y s, fun b => ?_, setReg_onlyWrites s x _⟩
    rw [State.setReg_reg_self, BitVec.getLsbD_and]
  · refine ⟨_, exec_xorReg x y s, fun b => ?_, setReg_onlyWrites s x _⟩
    rw [State.setReg_reg_self, BitVec.getLsbD_xor]

/-- Settles O23: Vx and then VF are written, both from the values on entry, so VF is the flag whatever x is. -/
theorem addAndSubtractWithFlag : Obligations.AddAndSubtractWithFlag := by
  intro x y
  have hdecode := Encoding.decodeWord_family8 x y
  refine ⟨hdecode 0x4, hdecode 0x5, hdecode 0x7, ?_⟩
  rintro s _ _ rfl rfl
  refine ⟨⟨_, exec_addReg x y s, ?_, fun hx => ?_, setWithFlag_onlyWrites s x _ _⟩,
    ⟨_, exec_subReg x y s, ?_, fun hx => ?_, setWithFlag_onlyWrites s x _ _⟩,
    ⟨_, exec_subnReg x y s, ?_, fun hx => ?_, setWithFlag_onlyWrites s x _ _⟩⟩
  · rw [setWithFlag_reg_vf, carryFlag_eq]
  · rw [setWithFlag_reg_self _ hx, BitVec.toNat_add]
  · rw [setWithFlag_reg_vf, greaterFlag_eq]
  · rw [setWithFlag_reg_self _ hx, sub_toNat]
  · rw [setWithFlag_reg_vf, greaterFlag_eq]
  · rw [setWithFlag_reg_self _ hx, sub_toNat]

/-- Settles O24: Vx and then VF are written, both from the entry value of Vx. -/
theorem shiftsOfVx : Obligations.ShiftsOfVx := by
  intro x y
  have hdecode := Encoding.decodeWord_family8 x y
  refine ⟨hdecode 0x6, hdecode 0xE, ?_⟩
  rintro s _ rfl
  refine ⟨⟨_, exec_shr x y s, ?_, fun hx => ?_, setWithFlag_onlyWrites s x _ _⟩,
    ⟨_, exec_shl x y s, ?_, fun hx => ?_, setWithFlag_onlyWrites s x _ _⟩⟩
  · rw [setWithFlag_reg_vf, lowBitFlag_toNat]
  · rw [setWithFlag_reg_self _ hx, shiftRight_one_toNat]
  · rw [setWithFlag_reg_vf, highBitFlag_toNat]
  · rw [setWithFlag_reg_self _ hx, shiftLeft_one_toNat]

/-- Settles O25: one register write, of the random byte of the cycle's input masked by kk. -/
theorem randomByteIsMasked : Obligations.RandomByteIsMasked := by
  refine fun x kk => ⟨Encoding.decodeWord_familyC x kk, fun s =>
    ⟨_, exec_rnd x kk s, fun b => ?_, setReg_onlyWrites s x _⟩⟩
  rw [State.setReg_reg_self, BitVec.getLsbD_and]

end Sys2Proof.Proofs.Alu

namespace Sys2Proof.Proofs.Index

open Sys2Proof Sys2Proof.Machine

/-! ## Frames -/

/-- The advance and the tick alone write no piece (rules R90 and R91). -/
theorem prologue_onlyWrites (s : State) : OnlyWrites [] s s.prologue := fun p _ => Control.prologue_kept s p

/-- A write of I adds the one piece I to a frame. -/
theorem setI_onlyWrites {ps : List Piece} {s t : State} (h : OnlyWrites ps s t) (w : Word) :
    OnlyWrites (.index :: ps) s (t.setI w) := by
  intro p hp
  obtain ⟨hne, hps⟩ : p ≠ .index ∧ p ∉ ps := by simpa using hp
  have hkept := h p hps
  cases p with
  | index => exact absurd rfl hne
  | _ => exact hkept

theorem byte_mem_bytesFrom {q a n : Nat} : Piece.byte q ∈ bytesFrom a n ↔ a ≤ q ∧ q < a + n := by
  simp only [bytesFrom, List.mem_map, List.mem_range, Piece.byte.injEq]
  constructor
  · rintro ⟨k, hk, rfl⟩
    omega
  · rintro ⟨hle, hlt⟩
    exact ⟨q - a, by omega, by omega⟩

theorem reg_mem_regsUpTo {r x : Reg} : Piece.reg r ∈ regsUpTo x ↔ r.val ≤ x.val := by
  simp [regsUpTo]

/-! ## Loads of I -/

theorem exec_ldI (nnn : Addr12) (s : State) : exec (.ldI nnn) s = .next (s.prologue.setI (addrOperand nnn)) := rfl

theorem exec_ldFVx (x : Reg) (s : State) : exec (.ldFVx x) s = .next (s.prologue.setI (glyphAddress (s.reg x))) := rfl

theorem exec_addIVx (x : Reg) (s : State) : exec (.addIVx x) s = .next (s.prologue.setI (s.i + zext16 (s.reg x))) := rfl

/-- Settles O26: each is one write of I, of nnn or of the glyph's address. -/
theorem loadIndexAndGlyph : Obligations.LoadIndexAndGlyph := fun x nnn =>
  ⟨Encoding.decodeWord_familyA nnn, Encoding.decodeWord_familyF x 0x29, fun s =>
    ⟨⟨_, exec_ldI nnn s, addrOperand_toNat nnn, setI_onlyWrites (prologue_onlyWrites s) _⟩,
      ⟨_, exec_ldFVx x s, glyphAddress_toNat (s.reg x), setI_onlyWrites (prologue_onlyWrites s) _⟩⟩⟩

/-- Settles O27: one write of I, of the 16-bit sum. -/
theorem addToIndex : Obligations.AddToIndex := by
  refine fun x => ⟨Encoding.decodeWord_familyF x 0x1E, fun s =>
    ⟨_, exec_addIVx x s, ?_, setI_onlyWrites (prologue_onlyWrites s) _⟩⟩
  rw [State.setI_i, BitVec.toNat_add, zext16_toNat]

/-! ## A block of bytes stored at I (rule R56) -/

/-- The state after the advance, the tick and a store of the bytes from I on. -/
def stored (s : State) (bs : List Byte) : State :=
  s.prologue.setMem (Memory.writeAll s.unlisted s.mem s.i.toNat bs)

theorem stored_byteAt (s : State) (bs : List Byte) (q : Nat) : (stored s bs).byteAt q =
    if s.i.toNat ≤ q ∧ q < s.i.toNat + bs.length then bs.getD (q - s.i.toNat) 0 else s.byteAt q :=
  Memory.read_writeAll s.unlisted bs s.mem s.i.toNat q

theorem stored_byteAt_add (s : State) {bs : List Byte} {k : Nat} (hk : k < bs.length) :
    (stored s bs).byteAt (s.i.toNat + k) = bs.getD k 0 := by
  rw [stored_byteAt, if_pos (by omega), Nat.add_sub_cancel_left]

theorem stored_onlyWrites (s : State) (bs : List Byte) : OnlyWrites (bytesFrom s.i.toNat bs.length) s (stored s bs) := by
  intro p hp
  have hkept := Control.prologue_kept s p
  cases p with
  | byte q => exact (stored_byteAt s bs q).trans (if_neg (mt byte_mem_bytesFrom.mpr hp))
  | _ => exact hkept

theorem writeBytes_stored {s : State} {bs : List Byte} (h : s.i.toNat + bs.length ≤ 4096)
    (hl : 0x200 ≤ s.i.toNat ∨ s.cfg.lowWrite = .allow) : s.prologue.writeBytes s.i.toNat bs = .ok (stored s bs) :=
  State.writeBytes_ok (s := s.prologue) (.inr h) hl

/-- A block of at most 16 bytes that leaves memory begins far above the low region, so its fault is WRITE_RANGE under both policies. -/
theorem writeBytes_leaves {s : State} {bs : List Byte} (hne : bs ≠ []) (hlen : bs.length ≤ 16)
    (h : 4096 < s.i.toNat + bs.length) :
    s.prologue.writeBytes s.i.toNat bs = .error ⟨.writeRange, BitVec.ofNat 16 (max s.i.toNat 4096)⟩ :=
  have hbase : 0x200 ≤ s.i.toNat := by omega
  State.writeBytes_range (s := s.prologue) hne h (.inl hbase)

/-- A nonempty block that begins in the low region faults at its first address, which is I. -/
theorem writeBytes_below {s : State} {bs : List Byte} (hne : bs ≠ []) (h : s.i.toNat < 0x200)
    (hl : s.cfg.lowWrite = .fault) : s.prologue.writeBytes s.i.toNat bs = .error ⟨.lowWrite, s.i⟩ := by
  rw [State.writeBytes_low (s := s.prologue) hne h hl, BitVec.ofNat_toNat, BitVec.setWidth_eq]

/-! ## Fx33 (rule R125) -/

theorem bcdDigits_length (b : Byte) : (bcdDigits b).length = 3 := rfl

theorem bcdDigits_ne_nil (b : Byte) : bcdDigits b ≠ [] := List.cons_ne_nil _ _

/-- Each decimal digit fits its byte. -/
theorem bcdDigits_toNat (b : Byte) : ((bcdDigits b).getD 0 0).toNat = b.toNat / 100 ∧
    ((bcdDigits b).getD 1 0).toNat = b.toNat / 10 % 10 ∧ ((bcdDigits b).getD 2 0).toNat = b.toNat % 10 := by
  refine ⟨Nat.mod_eq_of_lt ?_, Nat.mod_eq_of_lt ?_, Nat.mod_eq_of_lt ?_⟩ <;> omega

theorem exec_ldBVx_ok {x : Reg} {s t : State} (h : s.prologue.writeBytes s.i.toNat (bcdDigits (s.reg x)) = .ok t) :
    exec (.ldBVx x) s = .next t := by
  unfold exec
  refine runBody_ok ?_
  exact h

theorem exec_ldBVx_error {x : Reg} {s : State} {r : Raised}
    (h : s.prologue.writeBytes s.i.toNat (bcdDigits (s.reg x)) = .error r) :
    exec (.ldBVx x) s = .next (s.raise r) := by
  unfold exec
  refine runBody_error ?_
  exact h

/-- Settles O28: the three digits are one block stored at I, which fits, leaves memory or begins in the low region. -/
theorem storeDecimalDigits : Obligations.StoreDecimalDigits := by
  refine fun x => ⟨Encoding.decodeWord_familyF x 0x33, ?_⟩
  rintro s _ _ rfl rfl
  have hlen := bcdDigits_length (s.reg x)
  have hne := bcdDigits_ne_nil (s.reg x)
  refine ⟨fun hfit hl => ?_, fun hout => ?_, fun hlow hl => ?_⟩
  · obtain ⟨hhundreds, htens, hones⟩ := bcdDigits_toNat (s.reg x)
    refine ⟨_, exec_ldBVx_ok (writeBytes_stored (by omega) hl), ?_, ?_, ?_, stored_onlyWrites s (bcdDigits _)⟩
    · exact (congrArg BitVec.toNat (stored_byteAt_add s (k := 0) (by omega))).trans hhundreds
    · rw [stored_byteAt_add s (by omega), htens]
    · rw [stored_byteAt_add s (by omega), hones]
  · exact exec_ldBVx_error (writeBytes_leaves hne (by omega) (by omega))
  · exact exec_ldBVx_error (writeBytes_below hne hlow hl)

/-! ## Fx55 (rule R126) -/

theorem regBlock_ne_nil (s : State) (x : Reg) : s.regBlock x ≠ [] :=
  List.ne_nil_of_length_eq_add_one (State.regBlock_length s x)

/-- The advanced index as a number, for Fx55 and Fx65. -/
theorem indexed_toNat (s : State) (k : Nat) : (BitVec.ofNat 16 (s.indexed k)).toNat = (s.i.toNat + k) % 65536 :=
  BitVec.toNat_ofNat _ _

theorem exec_ldMemVx_ok {x : Reg} {s t : State} (h : s.prologue.writeBytes s.i.toNat (s.regBlock x) = .ok t) :
    exec (.ldMemVx x) s = .next (t.setI (BitVec.ofNat 16 (s.indexed (x.val + 1)))) := by
  have hwrite : s.prologue.writeBytes (s.prologue.indexed 0) (s.prologue.regBlock x) = .ok t := h
  unfold exec
  refine runBody_ok ?_
  rw [hwrite]
  rfl

theorem exec_ldMemVx_error {x : Reg} {s : State} {r : Raised}
    (h : s.prologue.writeBytes s.i.toNat (s.regBlock x) = .error r) : exec (.ldMemVx x) s = .next (s.raise r) := by
  have hwrite : s.prologue.writeBytes (s.prologue.indexed 0) (s.prologue.regBlock x) = .error r := h
  unfold exec
  refine runBody_error ?_
  rw [hwrite]

/-- Settles O29: V0 to Vx are one block stored at I, which fits, leaves memory or begins in the low region. -/
theorem storeRegisters : Obligations.StoreRegisters := by
  refine fun x => ⟨Encoding.decodeWord_familyF x 0x55, ?_⟩
  rintro s _ rfl
  have hlen := State.regBlock_length s x
  have hne := regBlock_ne_nil s x
  refine ⟨fun hfit hl => ?_, fun hout => ?_, fun hlow hl => ?_⟩
  · refine ⟨_, exec_ldMemVx_ok (writeBytes_stored (by omega) hl), fun k hk => ?_, indexed_toNat s _, ?_⟩
    · rw [State.setI_byteAt, stored_byteAt_add s (by omega), State.regBlock_getD s x k hk]
    · rw [← hlen]
      exact setI_onlyWrites (stored_onlyWrites s _) _
  · exact exec_ldMemVx_error (writeBytes_leaves hne (by omega) (by omega))
  · exact exec_ldMemVx_error (writeBytes_below hne hlow hl)

/-! ## Fx65 (rule R127) -/

/-- The x + 1 bytes from I on, which Fx65 loads into V0 to Vx. -/
def byteBlock (s : State) (x : Reg) : List Byte := (List.range (x.val + 1)).map (fun k => s.byteAt (s.i.toNat + k))

@[simp] theorem byteBlock_length (s : State) (x : Reg) : (byteBlock s x).length = x.val + 1 := by
  simp [byteBlock]

theorem byteBlock_getD (s : State) {x : Reg} {k : Nat} (hk : k ≤ x.val) :
    (byteBlock s x).getD k 0 = s.byteAt (s.i.toNat + k) := by
  simp [byteBlock, List.getD, Nat.lt_succ_of_le hk]

/-- The state after the advance, the tick and a load of V0 to Vx from I on, I not yet advanced. -/
def loaded (s : State) (x : Reg) : State := s.prologue.setRegs 0 (byteBlock s x)

theorem loaded_reg (s : State) (x r : Reg) :
    (loaded s x).reg r = if r.val ≤ x.val then s.byteAt (s.i.toNat + r.val) else s.reg r := by
  rw [loaded, State.setRegs_reg _ _ _ (by simp), byteBlock_length]
  by_cases hr : r.val ≤ x.val
  · rw [if_pos hr, if_pos (by omega), Nat.sub_zero, byteBlock_getD s hr]
  · rw [if_neg hr, if_neg (by omega), State.prologue_reg]

theorem loaded_onlyWrites (s : State) (x : Reg) : OnlyWrites (regsUpTo x) s (loaded s x) := by
  intro p hp
  have hkept := Control.prologue_kept s p
  obtain ⟨v, hv⟩ : ∃ v, loaded s x = { s.prologue with v := v } := State.setRegs_eq _ _ _
  cases p with
  | reg r => exact (loaded_reg s x r).trans (if_neg (mt reg_mem_regsUpTo.mpr hp))
  | _ =>
    rw [hv]
    exact hkept

theorem exec_ldVxMem_ok {x : Reg} {s : State} (h : s.i.toNat + x.val < 4096) :
    exec (.ldVxMem x) s = .next ((loaded s x).setI (BitVec.ofNat 16 (s.indexed (x.val + 1)))) := by
  have hread : s.prologue.readBytes (s.prologue.indexed 0) (x.val + 1) = .ok (byteBlock s x) :=
    State.readBytes_ok (s := s.prologue) (.inr h)
  unfold exec
  refine runBody_ok ?_
  rw [hread]
  rfl

theorem exec_ldVxMem_error {x : Reg} {s : State} (h : 4096 ≤ s.i.toNat + x.val) :
    exec (.ldVxMem x) s = .next (s.raise ⟨.readRange, BitVec.ofNat 16 (max s.i.toNat 4096)⟩) := by
  have hread : s.prologue.readBytes (s.prologue.indexed 0) (x.val + 1) =
      .error ⟨.readRange, BitVec.ofNat 16 (max s.i.toNat 4096)⟩ :=
    State.readBytes_error (s := s.prologue) (Nat.succ_pos _) (Nat.lt_succ_of_le h)
  unfold exec
  refine runBody_error ?_
  rw [hread]

/-- Settles O30, by the two outcomes of the block read at I. -/
theorem loadRegisters : Obligations.LoadRegisters := by
  refine fun x => ⟨Encoding.decodeWord_familyF x 0x65, ?_⟩
  rintro s _ rfl
  refine ⟨fun hfit => ?_, exec_ldVxMem_error⟩
  refine ⟨_, exec_ldVxMem_ok hfit, fun k hk => ?_, indexed_toNat s _, setI_onlyWrites (loaded_onlyWrites s x) _⟩
  rw [State.setI_reg, loaded_reg, if_pos hk]

end Sys2Proof.Proofs.Index

namespace Sys2Proof.Proofs.Display

open Sys2Proof Sys2Proof.Machine

/-! ## Clearing the display (rule R129) -/

theorem blank_pixel (r : Fin 32) (c : Fin 64) : Screen.blank[r][c] = false := by
  simp [Screen.blank]

/-- A write of the buffer adds the one piece, the display, to a frame. -/
theorem setFb_onlyWrites {ps : List Piece} {s t : State} (h : OnlyWrites ps s t) (f : Screen) :
    OnlyWrites (.display :: ps) s (t.setFb f) := by
  intro p hp
  obtain ⟨hne, hps⟩ : p ≠ .display ∧ p ∉ ps := by simpa using hp
  have hkept := h p hps
  cases p with
  | display => exact absurd rfl hne
  | _ => exact hkept

theorem exec_cls (s : State) : exec .cls s = .next (s.prologue.setFb Screen.blank) := rfl

/-- Settles O33: one write of the buffer, with the blank one. -/
theorem clearDisplay : Obligations.ClearDisplay :=
  ⟨by decide, fun s => ⟨_, exec_cls s, blank_pixel, setFb_onlyWrites (Index.prologue_onlyWrites s) _⟩⟩

/-! ## One draw (rules R130 to R132) -/

/-- The n sprite bytes of Dxyn, from I on. -/
def spriteBytes (s : State) (n : Nat) : List Byte := (List.range n).map (fun k => s.byteAt (s.i.toNat + k))

theorem spriteBytes_length (s : State) (n : Nat) : (spriteBytes s n).length = n := by
  simp [spriteBytes]

theorem spriteBytes_getD (s : State) {n j : Nat} (hj : j < n) : (spriteBytes s n).getD j 0 = s.byteAt (s.i.toNat + j) := by
  simp [spriteBytes, List.getD, hj]

/-- The buffer after a draw from s, and whether a pixel collided. -/
def drawn (s : State) (x y : Reg) (n : Nat) : Screen × Bool :=
  s.fb.draw (s.reg x).toNat (s.reg y).toNat (spriteBytes s n)

/-- The state that a draw leaves when its sprite lies in memory. -/
def afterDraw (s : State) (x y : Reg) (n : Nat) : State :=
  (s.prologue.setFb (drawn s x y n).1).setReg Reg.vf (flagByte (drawn s x y n).2)

/-- The sprite rows of Dxyn invert exactly the covered pixels: sprite byte j is the byte at I + j. -/
theorem toggles_sprite (s : State) (x y : Reg) (n : Nat) :
    Toggles (Screen.drawRows (s.reg x).toNat (s.reg y).toNat (spriteBytes s n)) (SpriteCovers s x y n) := by
  refine (toggles_drawRows _ (spriteBytes s n) _).congr (fun r c => ?_)
  rw [spriteBytes_length]
  constructor
  · rintro ⟨j, b, hj, hb, hr, hc, hbit⟩
    exact ⟨j, b, hj, hb, hr, hc, spriteBytes_getD s hj ▸ hbit⟩
  · rintro ⟨j, b, hj, hb, hr, hc, hbit⟩
    exact ⟨j, b, hj, hb, hr, hc, (spriteBytes_getD s hj).symm ▸ hbit⟩

theorem afterDraw_pixel (s : State) (x y : Reg) (n : Nat) (r : Fin 32) (c : Fin 64) :
    (SpriteCovers s x y n r c → (afterDraw s x y n).pixel r c = !s.pixel r c) ∧
      (¬SpriteCovers s x y n r c → (afterDraw s x y n).pixel r c = s.pixel r c) :=
  (toggles_sprite s x y n (s.fb, false)).1 r c

/-- The collision flag starts clear, so it is set exactly by a covered pixel that was on. -/
theorem drawn_collides (s : State) (x y : Reg) (n : Nat) :
    (drawn s x y n).2 = true ↔ ∃ r c, SpriteCovers s x y n r c ∧ s.pixel r c = true :=
  (toggles_sprite s x y n (s.fb, false)).2.trans (or_iff_right Bool.false_ne_true)

theorem afterDraw_reg_vf (s : State) (x y : Reg) (n : Nat) :
    (afterDraw s x y n).reg 15 = flagByte (drawn s x y n).2 :=
  State.setReg_reg_self _ _ _

/-- The buffer and VF are different fields, so the frame does not depend on which is written last. -/
theorem afterDraw_onlyWrites (s : State) (x y : Reg) (n : Nat) :
    OnlyWrites [.display, .reg 15] s (afterDraw s x y n) :=
  setFb_onlyWrites (Alu.setReg_onlyWrites s 15 (flagByte (drawn s x y n).2)) (drawn s x y n).1

theorem exec_drw_ok {n : Nat} {s : State} (h : n = 0 ∨ s.i.toNat + n ≤ 4096) (x y : Reg) :
    exec (.drw x y n) s = .next (afterDraw s x y n) := by
  have hread : s.prologue.readBytes (s.prologue.indexed 0) n = .ok (spriteBytes s n) :=
    State.readBytes_ok (s := s.prologue) h
  unfold exec
  refine runBody_ok ?_
  rw [hread]
  rfl

theorem exec_drw_error {n : Nat} {s : State} (hn : 0 < n) (h : 4096 < s.i.toNat + n) (x y : Reg) :
    exec (.drw x y n) s = .next (s.raise ⟨.readRange, BitVec.ofNat 16 (max s.i.toNat 4096)⟩) := by
  have hread : s.prologue.readBytes (s.prologue.indexed 0) n =
      .error ⟨.readRange, BitVec.ofNat 16 (max s.i.toNat 4096)⟩ :=
    State.readBytes_error (s := s.prologue) hn h
  unfold exec
  refine runBody_error ?_
  rw [hread]

theorem flagByte_eq_one {b : Bool} : flagByte b = 1 ↔ b = true := by
  cases b <;> decide

/-- A flag that says whether p holds is 1 where p holds and 0 elsewhere. -/
theorem flagByte_cases {b : Bool} {p : Prop} (h : b = true ↔ p) : flagByte b = 1 ∧ p ∨ flagByte b = 0 ∧ ¬p := by
  cases b with
  | true => exact .inl ⟨rfl, h.mp rfl⟩
  | false => exact .inr ⟨rfl, mt h.mpr Bool.false_ne_true⟩

/-- Settles O34, by the two outcomes of the block read at I. -/
theorem drawInvertsCoveredPixels : Obligations.DrawInvertsCoveredPixels := by
  refine fun x y n => ⟨fun hn => ?_, fun s => ⟨fun hfit => ?_, fun hpos hout => exec_drw_error hpos hout x y⟩⟩
  · have hval : (BitVec.ofNat 4 n).toNat = n := Nat.mod_eq_of_lt hn
    exact (Encoding.decodeWord_familyD x y (BitVec.ofNat 4 n)).trans (by rw [hval])
  · refine ⟨_, exec_drw_ok hfit x y, afterDraw_pixel s x y n, ?_, afterDraw_onlyWrites s x y n⟩
    rw [afterDraw_reg_vf]
    exact flagByte_cases (drawn_collides s x y n)

/-! ## The same draw twice (rule R133) -/

/-- A draw leaves I, memory and every register but VF, so one whose coordinates are not in VF covers the same pixels again. -/
theorem afterDraw_covers (s : State) {x y : Reg} (hx : x ≠ 15) (hy : y ≠ 15) (n : Nat) :
    SpriteCovers (afterDraw s x y n) x y n = SpriteCovers s x y n := by
  have hregx : (afterDraw s x y n).reg x = s.reg x := State.setReg_reg_ne _ _ hx
  have hregy : (afterDraw s x y n).reg y = s.reg y := State.setReg_reg_ne _ _ hy
  funext r c
  unfold SpriteCovers
  rw [hregx, hregy]
  rfl

/-- A pixel is inverted twice or not at all. -/
theorem afterDraw_twice_pixel (s : State) {x y : Reg} (hx : x ≠ 15) (hy : y ≠ 15) (n : Nat) (r : Fin 32) (c : Fin 64) :
    (afterDraw (afterDraw s x y n) x y n).pixel r c = s.pixel r c := by
  obtain ⟨hin, hout⟩ := afterDraw_pixel s x y n r c
  obtain ⟨hin', hout'⟩ := afterDraw_pixel (afterDraw s x y n) x y n r c
  rw [afterDraw_covers s hx hy] at hin' hout'
  by_cases h : SpriteCovers s x y n r c
  · rw [hin' h, hin h, Bool.not_not]
  · rw [hout' h, hout h]

/-- The pixels that a draw turns on are the covered pixels that are on after it. -/
theorem afterDraw_turnsOn (s : State) (x y : Reg) (n : Nat) (r : Fin 32) (c : Fin 64) :
    SpriteCovers s x y n r c ∧ (afterDraw s x y n).pixel r c = true ↔
      (afterDraw s x y n).pixel r c = true ∧ s.pixel r c = false := by
  obtain ⟨hin, hout⟩ := afterDraw_pixel s x y n r c
  by_cases h : SpriteCovers s x y n r c
  · simp [h, hin h]
  · simp [h, hout h]

/-- Settles O35: the second draw covers the pixels of the first, so it inverts them back and collides exactly with those that the
first turned on. -/
theorem drawTwiceRestores : Obligations.DrawTwiceRestores := by
  intro x y n s hx hy hfit
  refine ⟨_, _, exec_drw_ok hfit x y, exec_drw_ok (s := afterDraw s x y n) hfit x y, afterDraw_twice_pixel s hx hy n, ?_⟩
  rw [afterDraw_reg_vf, flagByte_eq_one, drawn_collides, afterDraw_covers s hx hy]
  simp only [afterDraw_turnsOn]

/-! ## The instructions that leave the display (section 8 of spec/10_state.md) -/

theorem setRegs_fb (bs : List Byte) (s : State) (k : Nat) : (s.setRegs k bs).fb = s.fb := by
  obtain ⟨v, hv⟩ := State.setRegs_eq bs s k
  rw [hv]

theorem pop_fb {s t : State} {r : Raised} (h : s.pop r = .ok t) : t.fb = s.fb := by
  rcases State.pop_cases s r with ⟨j, _, _, hp⟩ | ⟨_, hp⟩
  · cases hp.symm.trans h
    rfl
  · cases hp.symm.trans h

theorem push_fb {s t : State} {w : Word} {r : Raised} (h : s.push w r = .ok t) : t.fb = s.fb := by
  rcases State.push_cases s w r with ⟨_, hp⟩ | ⟨_, hp⟩
  · cases hp.symm.trans h
    rfl
  · cases hp.symm.trans h

theorem writeBytes_fb {s t : State} {a : Nat} {bs : List Byte} (hb : bs ≠ []) (h : s.writeBytes a bs = .ok t) :
    t.fb = s.fb := by
  rcases State.writeBytes_cases s a hb with ⟨_, hp⟩ | ⟨_, hp⟩ | ⟨_, hp⟩
  · cases hp.symm.trans h
    rfl
  · cases hp.symm.trans h
  · cases hp.symm.trans h

/-- A fault leaves the buffer, and so do the advance and the tick. -/
theorem runBody_fb {body : State → Except Raised State} {s t : State}
    (hbody : ∀ u, body s.prologue = .ok u → u.fb = s.prologue.fb) (h : runBody body s = .next t) : t.fb = s.fb := by
  rcases runBody_next h with hok | ⟨r, _, rfl⟩
  · exact hbody t hok
  · rfl

theorem exec_fb {i : Instr} {s t : State} (h : exec i s = .next t) (hcls : i ≠ .cls) (hdrw : ∀ x y n, i ≠ .drw x y n) :
    t.fb = s.fb := by
  unfold exec at h
  cases i with
  | cls => exact absurd rfl hcls
  | drw x y n => exact absurd rfl (hdrw x y n)
  | ret => exact runBody_fb (fun u hu => pop_fb hu) h
  | call nnn =>
    refine runBody_fb (fun u hu => ?_) h
    split at hu
    · cases hu
    · rename_i pushed hp
      cases hu
      exact (State.setPc_fb pushed _).trans (push_fb hp)
  | skp | sknp =>
    refine runBody_fb (fun u hu => ?_) h
    split at hu
    · cases hu
    · cases hu
      rfl
  | ldVxK x =>
    refine runBody_fb (fun u hu => ?_) h
    cases hu
    split <;> rfl
  | ldBVx x => exact runBody_fb (fun u hu => writeBytes_fb (Index.bcdDigits_ne_nil _) hu) h
  | ldMemVx x =>
    refine runBody_fb (fun u hu => ?_) h
    split at hu
    · cases hu
    · rename_i stored hw
      cases hu
      exact (State.setI_fb stored _).trans (writeBytes_fb (Index.regBlock_ne_nil _ x) hw)
  | ldVxMem x =>
    refine runBody_fb (fun u hu => ?_) h
    split at hu
    · cases hu
    · rename_i bs _
      cases hu
      exact setRegs_fb bs s.prologue 0
  | _ =>
    refine runBody_fb (fun u hu => ?_) h
    cases hu
    rfl

/-- Settles O44: any other instruction leaves the whole buffer. -/
theorem displayWriters : Obligations.DisplayWriters := by
  intro i s t r c h hne
  by_contra hother
  obtain ⟨hcls, hdrw⟩ := not_or.mp hother
  have hfb : t.fb = s.fb := exec_fb h hcls (fun x y n hi => hdrw ⟨x, y, n, hi⟩)
  exact hne (congrArg (fun fb : Screen => fb[r][c]) hfb)

end Sys2Proof.Proofs.Display

namespace Sys2Proof.Proofs.KeysTimers

open Sys2Proof Sys2Proof.Machine

/-! ## The lowest key down (rule R138) -/

theorem lowestDown_zero : lowestDown 0 = none := by
  rcases lowestDown_spec 0 with ⟨hnone, _⟩ | ⟨k, _, hk, _⟩
  · exact hnone
  · simp at hk

/-- A key that is down with every lower key up is the one that `lowestDown` answers. -/
theorem lowestDown_eq_some {keys : BitVec 16} {k : Fin 16} (hk : keys.getLsbD k.val = true)
    (hlow : ∀ j : Fin 16, j < k → keys.getLsbD j.val = false) : lowestDown keys = some k := by
  rcases lowestDown_spec keys with ⟨_, rfl⟩ | ⟨m, hm, hmdown, hmlow⟩
  · simp at hk
  · have hkm : ¬k < m := fun h => Bool.false_ne_true ((hmlow k h).symm.trans hk)
    have hmk : ¬m < k := fun h => Bool.false_ne_true ((hlow m h).symm.trans hmdown)
    rw [hm, le_antisymm (not_lt.mp hkm) (not_lt.mp hmk)]

theorem exists_lowest {keys : BitVec 16} (h : keys ≠ 0) :
    ∃ k : Fin 16, keys.getLsbD k.val = true ∧ ∀ j : Fin 16, j < k → keys.getLsbD j.val = false := by
  rcases lowestDown_spec keys with ⟨_, hzero⟩ | ⟨k, _, hk⟩
  · exact absurd hzero h
  · exact ⟨k, hk⟩

/-! ## Fx0A (rule R139) -/

/-- With no key down the advance of PC is taken back. -/
theorem exec_ldVxK_wait {s : State} (h : s.input.keys = 0) (x : Reg) :
    exec (.ldVxK x) s = .next (s.prologue.setPc s.pc) := by
  unfold exec
  refine runBody_ok ?_
  rw [State.prologue_input, h, lowestDown_zero, State.prologue_pc, BitVec.add_sub_cancel]

theorem exec_ldVxK_take {s : State} {k : Fin 16} (h : lowestDown s.input.keys = some k) (x : Reg) :
    exec (.ldVxK x) s = .next (s.prologue.setReg x (BitVec.ofNat 8 k.val)) := by
  unfold exec
  refine runBody_ok ?_
  rw [State.prologue_input, h]

/-- Settles O38, by the two answers of `lowestDown`. -/
theorem waitForKey : Obligations.WaitForKey := by
  refine fun x => ⟨Encoding.decodeWord_familyF x 0x0A, fun s => ⟨fun hup => ?_, fun k hk hlow => ?_, exists_lowest⟩⟩
  · exact ⟨_, exec_ldVxK_wait hup x, rfl, Control.setPc_onlyWrites s s.pc⟩
  · refine ⟨_, exec_ldVxK_take (lowestDown_eq_some hk hlow) x, ?_, Alu.setReg_onlyWrites s x _⟩
    rw [State.setReg_reg_self]
    exact Nat.mod_eq_of_lt (by omega)

/-! ## A wait of any number of cycles -/

/-- A running core at an Fx0A. -/
def AtKeyWait (x : Reg) (s : State) : Prop := s.halted = false ∧ s.fetch = .ok (encodeXKK 0xF x 0x0A)

theorem atKeyWait_ticked {x : Reg} (s : State) (h : AtKeyWait x s) : AtKeyWait x (Control.ticked s) := h

theorem perform_cycle_keyWait {x : Reg} {s : State} (h : AtKeyWait x s) (rnd : Byte) :
    (s.perform (.cycle 0 rnd)).2 = Control.ticked s := by
  obtain ⟨hrun, hw⟩ := h
  rw [Control.perform_cycle_runs hrun hw (Encoding.decodeWord_familyF x 0x0A) (exec_ldVxK_wait rfl x)]
  rfl

/-- Settles O39: every cycle with no key down only ticks and leaves the core at the Fx0A, and so does any number of them. -/
theorem keyWaitOnlyTicks : Obligations.KeyWaitOnlyTicks := by
  intro s x ops hrun hw hops
  have hall : s.performAll ops = Control.ticked^[ops.length] s :=
    Control.performAll_ticks atKeyWait_ticked ops s ⟨hrun, hw⟩ (fun op hop u hu => by
      obtain ⟨rnd, rfl⟩ := hops op hop
      exact perform_cycle_keyWait hu rnd)
  rw [Control.ticked_iterate] at hall
  exact ⟨_, hall, rfl, Control.tick_iterate_toNat _ s.dt, Control.tick_iterate_toNat _ s.st⟩

/-! ## Ex9E and ExA1 (rules R134 to R136) -/

theorem zext16_eq (b : Byte) : zext16 b = BitVec.ofNat 16 b.toNat := (BitVec.ofNat_toNat 16 b).symm

/-- The key test answers the level of a key 0 to 15, and for a larger number what two of the policies of decision D8 say. -/
theorem keyDown_ok {s : State} {b : Byte} {down : Bool} (h : b.toNat ≤ 0xF ∧ down = s.input.keys.getLsbD b.toNat ∨
    0xF < b.toNat ∧ s.cfg.keyRange = .lowNibble ∧ down = s.input.keys.getLsbD (b.toNat % 16) ∨
    0xF < b.toNat ∧ s.cfg.keyRange = .notDown ∧ down = false) : s.keyDown b = .ok down := by
  unfold State.keyDown
  rcases h with ⟨hkey, rfl⟩ | ⟨hlarge, hpolicy, rfl⟩ | ⟨hlarge, hpolicy, rfl⟩
  · rw [if_pos hkey]
  · rw [if_neg (Nat.not_le.mpr hlarge), hpolicy]
  · rw [if_neg (Nat.not_le.mpr hlarge), hpolicy]

/-- Under the third policy of decision D8 the key test of a larger number raises KEY_RANGE. -/
theorem keyDown_error {s : State} {b : Byte} (hlarge : 0xF < b.toNat) (hpolicy : s.cfg.keyRange = .fault) :
    s.keyDown b = .error ⟨.keyRange, BitVec.ofNat 16 b.toNat⟩ := by
  unfold State.keyDown
  rw [if_neg (Nat.not_le.mpr hlarge), hpolicy, zext16_eq]

/-- Ex9E skips when the key test answers down, ExA1 when it answers up. -/
theorem exec_keySkips_ok {x : Reg} {s : State} {down : Bool} (h : s.keyDown (s.reg x) = .ok down) :
    exec (.skp x) s = .next (s.prologue.skipIf down) ∧ exec (.sknp x) s = .next (s.prologue.skipIf (!down)) := by
  have htest : s.prologue.keyDown (s.prologue.reg x) = .ok down := h
  unfold exec
  constructor
  · refine runBody_ok ?_
    rw [htest]
  · refine runBody_ok ?_
    rw [htest]

theorem exec_keySkips_error {x : Reg} {s : State} {r : Raised} (h : s.keyDown (s.reg x) = .error r) :
    exec (.skp x) s = .next (s.raise r) ∧ exec (.sknp x) s = .next (s.raise r) := by
  have htest : s.prologue.keyDown (s.prologue.reg x) = .error r := h
  unfold exec
  constructor
  · refine runBody_error ?_
    rw [htest]
  · refine runBody_error ?_
    rw [htest]

/-- Settles O36: both are the one skip on the answer of the key test, or the fault it raises. -/
theorem keySkips : Obligations.KeySkips := by
  refine fun x => ⟨Encoding.decodeWord_familyE x 0x9E, Encoding.decodeWord_familyE x 0xA1, ?_⟩
  rintro s _ rfl
  refine ⟨fun down hdown => ?_, fun hlarge hpolicy => exec_keySkips_error (keyDown_error hlarge hpolicy)⟩
  obtain ⟨hskp, hsknp⟩ := exec_keySkips_ok (keyDown_ok hdown)
  have hup : (!down) = true ↔ down = false := Iff.of_eq (Bool.not_eq_true' down)
  exact ⟨⟨_, hskp, Control.skipIf_spec s Iff.rfl⟩, ⟨_, hsknp, Control.skipIf_spec s hup⟩⟩

/-! ## Fx07, Fx15 and Fx18 (rules R137, R140 and R141) -/

theorem setDt_onlyWrites (s : State) (b : Byte) : OnlyWrites [.delay] s (s.prologue.setDt b) := by
  intro p hp
  have hkept := Control.prologue_kept s p
  cases p with
  | delay => simp at hp
  | _ => exact hkept

theorem setSt_onlyWrites (s : State) (b : Byte) : OnlyWrites [.sound] s (s.prologue.setSt b) := by
  intro p hp
  have hkept := Control.prologue_kept s p
  cases p with
  | sound => simp at hp
  | _ => exact hkept

/-- Sound is active exactly while ST is not 0 (rule R157, decision D15). -/
theorem soundActive_iff (s : State) : s.soundActive = true ↔ s.st ≠ 0 := bne_iff_ne

theorem exec_ldDTVx (x : Reg) (s : State) : exec (.ldDTVx x) s = .next (s.prologue.setDt (s.reg x)) := rfl

theorem exec_ldSTVx (x : Reg) (s : State) : exec (.ldSTVx x) s = .next (s.prologue.setSt (s.reg x)) := rfl

/-- Settles O37: each is one write after the tick, so Fx07 reads the ticked DT and a written timer is not ticked in the cycle. -/
theorem timerInstructions : Obligations.TimerInstructions := by
  intro x
  have hdecode := Encoding.decodeWord_familyF x
  refine ⟨hdecode 0x07, hdecode 0x15, hdecode 0x18, fun s => ⟨?_, ?_, ?_⟩⟩
  · refine ⟨_, Cycle.exec_ldVxDT x s, ?_, Alu.setReg_onlyWrites s x _⟩
    rw [State.setReg_reg_self, tick_toNat]
  · exact ⟨_, exec_ldDTVx x s, rfl, setDt_onlyWrites s _⟩
  · exact ⟨_, exec_ldSTVx x s, rfl, soundActive_iff _, setSt_onlyWrites s _⟩

end Sys2Proof.Proofs.KeysTimers

namespace Sys2Proof.Proofs.Words

open Sys2Proof Sys2Proof.Machine

/-! ## From an instruction to its word and back (rules R71 to R80) -/

/-- The decoder reads every operand back; only the count of Dxyn has to fit its field. -/
theorem decodeWord_encode {i : Instr} (h : i.wellFormed = true) : decodeWord (encode i) = some i := by
  cases i with
  | cls | ret => decide
  | jp nnn => exact Encoding.decodeWord_family1 nnn
  | call nnn => exact Encoding.decodeWord_family2 nnn
  | seByte x kk => exact Encoding.decodeWord_family3 x kk
  | sneByte x kk => exact Encoding.decodeWord_family4 x kk
  | seReg x y => exact Encoding.decodeWord_family5 x y _
  | ldByte x kk => exact Encoding.decodeWord_family6 x kk
  | addByte x kk => exact Encoding.decodeWord_family7 x kk
  | ldReg x y | orReg x y | andReg x y | xorReg x y | addReg x y | subReg x y | shr x y | subnReg x y | shl x y =>
    exact Encoding.decodeWord_family8 x y _
  | sneReg x y => exact Encoding.decodeWord_family9 x y _
  | ldI nnn => exact Encoding.decodeWord_familyA nnn
  | jpV0 nnn => exact Encoding.decodeWord_familyB nnn
  | rnd x kk => exact Encoding.decodeWord_familyC x kk
  | drw x y n =>
    have hn : n < 16 := of_decide_eq_true h
    have hval : (BitVec.ofNat 4 n).toNat = n := Nat.mod_eq_of_lt hn
    exact (Encoding.decodeWord_familyD x y (BitVec.ofNat 4 n)).trans (by rw [hval])
  | skp x | sknp x => exact Encoding.decodeWord_familyE x _
  | ldVxDT x | ldVxK x | ldDTVx x | ldSTVx x | addIVx x | ldFVx x | ldBVx x | ldMemVx x | ldVxMem x =>
    exact Encoding.decodeWord_familyF x _

/-- A word is the big-endian word of its two bytes (rule R53). -/
theorem wordOfBytes_hiByte_loByte (w : Word) : wordOfBytes w.hiByte w.loByte = w := by
  have hhi : w.hiByte.toNat = w.toNat / 2 ^ 8 % 2 ^ 8 := Encoding.field_toNat w 8 8
  have hlo : w.loByte.toNat = w.toNat / 2 ^ 0 % 2 ^ 8 := Encoding.field_toNat w 0 8
  refine BitVec.eq_of_toNat_eq ?_
  rw [wordOfBytes_toNat, hhi, hlo]
  omega

/-- The byte decoder takes the two bytes of a word that decodes and leaves the rest. -/
theorem decode_word_bytes {w : Word} {i : Instr} (h : decodeWord w = some i) (rest : List Byte) :
    decode (w.hiByte :: w.loByte :: rest) = .ok (i, rest) := by
  simp only [decode, wordOfBytes_hiByte_loByte, h]

/-- Settles O1: family by family the decoder reads the encoder's fields back, from the word and so from its two bytes. -/
theorem decodeInvertsEncode : Obligations.DecodeInvertsEncode := fun _ hwf =>
  ⟨decodeWord_encode hwf, decode_word_bytes (decodeWord_encode hwf)⟩

/-! ## From a word to its instruction and back -/

/-- A word is the encoding of its own fields in each of the three formats (rules R71 and R72). -/
theorem encodeNNN_fields (w : Word) : encodeNNN w.family w.nnn = w := by
  refine BitVec.eq_of_toNat_eq ?_
  rw [Encoding.encodeNNN_toNat, Encoding.family_toNat, Encoding.nnn_toNat]
  omega

theorem encodeXKK_fields (w : Word) : encodeXKK w.family w.x w.kk = w := by
  refine BitVec.eq_of_toNat_eq ?_
  rw [Encoding.encodeXKK_toNat, Encoding.family_toNat, Encoding.x_val, Encoding.kk_toNat]
  omega

theorem encodeXYN_fields (w : Word) : encodeXYN w.family w.x w.y w.n = w := by
  refine BitVec.eq_of_toNat_eq ?_
  rw [Encoding.encodeXYN_toNat, Encoding.family_toNat, Encoding.x_val, Encoding.y_val, Encoding.n_toNat]
  omega

/-- The one family left after 0x0 to 0xE. -/
theorem family_eq_last : ∀ f : BitVec 4, f ≠ 0x0 → f ≠ 0x1 → f ≠ 0x2 → f ≠ 0x3 → f ≠ 0x4 → f ≠ 0x5 → f ≠ 0x6 → f ≠ 0x7 →
    f ≠ 0x8 → f ≠ 0x9 → f ≠ 0xA → f ≠ 0xB → f ≠ 0xC → f ≠ 0xD → f ≠ 0xE → f = 0xF := by
  bv_omega

/-- The word is the encoding of the instruction, which is well-formed. -/
def Encodes (w : Word) (i : Instr) : Prop := encode i = w ∧ i.wellFormed = true

theorem encodes_of_decodeFamily0 {w : Word} {i : Instr} (hf : w.family = 0x0#4) (h : decodeFamily0 w.nnn = some i) :
    Encodes w i := by
  have hw := encodeNNN_fields w
  rw [hf] at hw
  unfold decodeFamily0 at h
  split at h
  case h_3 => cases h
  all_goals
    rename_i hlow
    rw [hlow] at hw
    cases h
    exact ⟨hw, rfl⟩

theorem encodes_of_decodeFamily8 {w : Word} {i : Instr} (hf : w.family = 0x8#4) (h : decodeFamily8 w = some i) :
    Encodes w i := by
  have hw := encodeXYN_fields w
  rw [hf] at hw
  unfold decodeFamily8 at h
  split at h
  case h_10 => cases h
  all_goals
    rename_i hn
    rw [hn] at hw
    cases h
    exact ⟨hw, rfl⟩

theorem encodes_of_decodeFamilyE {w : Word} {i : Instr} (hf : w.family = 0xE#4) (h : decodeFamilyE w = some i) :
    Encodes w i := by
  have hw := encodeXKK_fields w
  rw [hf] at hw
  unfold decodeFamilyE at h
  split at h
  case h_3 => cases h
  all_goals
    rename_i hkk
    rw [hkk] at hw
    cases h
    exact ⟨hw, rfl⟩

theorem encodes_of_decodeFamilyF {w : Word} {i : Instr} (hf : w.family = 0xF#4) (h : decodeFamilyF w = some i) :
    Encodes w i := by
  have hw := encodeXKK_fields w
  rw [hf] at hw
  unfold decodeFamilyF at h
  split at h
  case h_10 => cases h
  all_goals
    rename_i hkk
    rw [hkk] at hw
    cases h
    exact ⟨hw, rfl⟩

theorem encodes_of_decodeWord {w : Word} {i : Instr} (h : decodeWord w = some i) : Encodes w i := by
  have hnnn := encodeNNN_fields w
  have hxkk := encodeXKK_fields w
  have hxyn := encodeXYN_fields w
  unfold decodeWord at h
  split at h
  case h_1 hf => exact encodes_of_decodeFamily0 hf h
  case h_9 hf => exact encodes_of_decodeFamily8 hf h
  case h_15 hf => exact encodes_of_decodeFamilyE hf h
  case h_16 =>
    exact encodes_of_decodeFamilyF (family_eq_last _ ‹_› ‹_› ‹_› ‹_› ‹_› ‹_› ‹_› ‹_› ‹_› ‹_› ‹_› ‹_› ‹_› ‹_› ‹_›) h
  case h_2 hf | h_3 hf | h_11 hf | h_12 hf =>
    rw [hf] at hnnn
    cases h
    exact ⟨hnnn, rfl⟩
  case h_4 hf | h_5 hf | h_7 hf | h_8 hf | h_13 hf =>
    rw [hf] at hxkk
    cases h
    exact ⟨hxkk, rfl⟩
  case h_6 hf | h_10 hf =>
    split at h
    · rename_i hn
      rw [hf, hn] at hxyn
      cases h
      exact ⟨hxyn, rfl⟩
    · cases h
  case h_14 hf =>
    rw [hf] at hxyn
    cases h
    refine ⟨?_, decide_eq_true w.n.isLt⟩
    rw [encode, BitVec.ofNat_toNat, BitVec.setWidth_eq]
    exact hxyn

/-- Settles O2: in each family the fields that select the instruction are fixed, and the other fields are its operands. -/
theorem encodeInvertsDecode : Obligations.EncodeInvertsDecode := fun _ _ => encodes_of_decodeWord

/-- Settles O6: twelve words through the decoder. -/
theorem specWordsDecode : Obligations.SpecWordsDecode := by
  unfold Obligations.SpecWordsDecode
  decide

/-! ## The unknown words (rule R82) -/

/-- The decoder's choice of family, the family read as a number. -/
theorem decodeWord_eq (w : Word) : decodeWord w =
    if w.family.toNat = 0x0 then decodeFamily0 w.nnn else if w.family.toNat = 0x1 then some (.jp w.nnn)
    else if w.family.toNat = 0x2 then some (.call w.nnn) else if w.family.toNat = 0x3 then some (.seByte w.x w.kk)
    else if w.family.toNat = 0x4 then some (.sneByte w.x w.kk)
    else if w.family.toNat = 0x5 then if w.n.toNat = 0 then some (.seReg w.x w.y) else none
    else if w.family.toNat = 0x6 then some (.ldByte w.x w.kk) else if w.family.toNat = 0x7 then some (.addByte w.x w.kk)
    else if w.family.toNat = 0x8 then decodeFamily8 w
    else if w.family.toNat = 0x9 then if w.n.toNat = 0 then some (.sneReg w.x w.y) else none
    else if w.family.toNat = 0xA then some (.ldI w.nnn) else if w.family.toNat = 0xB then some (.jpV0 w.nnn)
    else if w.family.toNat = 0xC then some (.rnd w.x w.kk) else if w.family.toNat = 0xD then some (.drw w.x w.y w.n.toNat)
    else if w.family.toNat = 0xE then decodeFamilyE w else decodeFamilyF w := by
  unfold decodeWord
  split <;> simp_all [← BitVec.toNat_inj]

theorem decodeFamily0_eq_none {low : Addr12} : decodeFamily0 low = none ↔ low.toNat ≠ 0x0E0 ∧ low.toNat ≠ 0x0EE := by
  rw [Encoding.decodeFamily0_eq]
  split_ifs <;> simp_all

theorem decodeFamily8_eq_none {w : Word} : decodeFamily8 w = none ↔
    w.n.toNat ∈ [0x8, 0x9, 0xA, 0xB, 0xC, 0xD, 0xF] := by
  rw [Encoding.decodeFamily8_eq]
  have := w.n.isLt
  split_ifs <;> simp <;> omega

theorem decodeFamilyE_eq_none {w : Word} : decodeFamilyE w = none ↔ w.kk.toNat ∉ [0x9E, 0xA1] := by
  rw [Encoding.decodeFamilyE_eq]
  split_ifs <;> simp_all

theorem decodeFamilyF_eq_none {w : Word} : decodeFamilyF w = none ↔
    w.kk.toNat ∉ [0x07, 0x0A, 0x15, 0x18, 0x1E, 0x29, 0x33, 0x55, 0x65] := by
  rw [Encoding.decodeFamilyF_eq]
  split_ifs <;> simp_all

/-- A word is unknown exactly when it is in one of the six sets of rule R82, by its fields. -/
theorem decodeWord_eq_none_iff_fields {w : Word} : decodeWord w = none ↔
    (w.family.toNat = 0x0 ∧ w.nnn.toNat ≠ 0x0E0 ∧ w.nnn.toNat ≠ 0x0EE) ∨
    (w.family.toNat = 0x5 ∧ w.n.toNat ≠ 0) ∨
    (w.family.toNat = 0x8 ∧ w.n.toNat ∈ [0x8, 0x9, 0xA, 0xB, 0xC, 0xD, 0xF]) ∨
    (w.family.toNat = 0x9 ∧ w.n.toNat ≠ 0) ∨
    (w.family.toNat = 0xE ∧ w.kk.toNat ∉ [0x9E, 0xA1]) ∨
    (w.family.toNat = 0xF ∧ w.kk.toNat ∉ [0x07, 0x0A, 0x15, 0x18, 0x1E, 0x29, 0x33, 0x55, 0x65]) := by
  have hlt := w.family.isLt
  rw [decodeWord_eq, ← decodeFamily0_eq_none, ← decodeFamily8_eq_none, ← decodeFamilyE_eq_none, ← decodeFamilyF_eq_none]
  generalize w.family.toNat = f at hlt ⊢
  interval_cases f <;> simp

/-- The sets of rule R82 with the fields written as parts of the word's number. -/
theorem decodeWord_eq_none_iff {w : Word} : decodeWord w = none ↔
    (w.toNat / 0x1000 = 0x0 ∧ w.toNat ≠ 0x00E0 ∧ w.toNat ≠ 0x00EE) ∨
    (w.toNat / 0x1000 = 0x5 ∧ w.toNat % 0x10 ≠ 0) ∨
    (w.toNat / 0x1000 = 0x8 ∧ w.toNat % 0x10 ∈ [0x8, 0x9, 0xA, 0xB, 0xC, 0xD, 0xF]) ∨
    (w.toNat / 0x1000 = 0x9 ∧ w.toNat % 0x10 ≠ 0) ∨
    (w.toNat / 0x1000 = 0xE ∧ w.toNat % 0x100 ∉ [0x9E, 0xA1]) ∨
    (w.toNat / 0x1000 = 0xF ∧ w.toNat % 0x100 ∉ [0x07, 0x0A, 0x15, 0x18, 0x1E, 0x29, 0x33, 0x55, 0x65]) := by
  have hf : w.family.toNat = w.toNat / 0x1000 := by
    rw [Encoding.family_toNat]
    omega
  have hlow : w.toNat / 0x1000 = 0 → w.toNat % 0x1000 = w.toNat := by omega
  rw [decodeWord_eq_none_iff_fields, hf, Encoding.nnn_toNat, Encoding.n_toNat, Encoding.kk_toNat]
  refine or_congr_left (and_congr_right fun h0 => ?_)
  rw [hlow h0]

/-! ## The opcode table (rule R81) -/

/-- Two rows that one word matches agree where both masks are set. -/
theorem patterns_agree {r q : OpcodeRow} {w : Word} (hr : r.matchesWord w = true) (hq : q.matchesWord w = true) :
    r.pattern &&& q.mask = q.pattern &&& r.mask := by
  have hr : w &&& r.mask = r.pattern := beq_iff_eq.mp hr
  have hq : w &&& q.mask = q.pattern := beq_iff_eq.mp hq
  rw [← hr, ← hq, BitVec.and_assoc, BitVec.and_assoc, BitVec.and_comm r.mask]

theorem opcodeTable_disagrees : opcodeTable.Pairwise (fun r q => r.pattern &&& q.mask ≠ q.pattern &&& r.mask) := by
  decide

/-- No word matches two rows of the table. -/
theorem opcodeTable_exclusive (w : Word) :
    opcodeTable.Pairwise (fun r q => ¬(r.matchesWord w = true ∧ q.matchesWord w = true)) :=
  opcodeTable_disagrees.imp fun hne h => hne (patterns_agree h.1 h.2)

/-- Where no two members of a list satisfy p, one that does is all that the filter leaves. -/
theorem filter_eq_singleton {α : Type} {p : α → Bool} {a : α} : ∀ {l : List α},
    l.Pairwise (fun b c => ¬(p b = true ∧ p c = true)) → a ∈ l → p a = true → l.filter p = [a]
  | b :: l, hl, ha, hp => by
    obtain ⟨hb, hl⟩ := List.pairwise_cons.mp hl
    rcases List.mem_cons.mp ha with rfl | ha
    · have hnone : l.filter p = [] := List.filter_eq_nil_iff.mpr fun c hc hpc => hb c hc ⟨hp, hpc⟩
      rw [List.filter_cons_of_pos hp, hnone]
    · have hpb : ¬p b = true := fun hpb => hb a ha ⟨hpb, hp⟩
      rw [List.filter_cons_of_neg hpb, filter_eq_singleton hl ha hp]

/-! What the four masks of the table leave of a word, as numbers. -/

theorem and_nnn_mask_toNat (w : Word) : (w &&& 0xF000).toNat = w.family.toNat * 0x1000 := by
  have hmask := encodeNNN_mask w.family w.nnn
  rw [encodeNNN_fields] at hmask
  rw [hmask, Encoding.encodeNNN_toNat]
  simp

theorem and_xkk_mask_toNat (w : Word) : (w &&& 0xF0FF).toNat = w.family.toNat * 0x1000 + w.kk.toNat := by
  have hmask := encodeX_mask w.family w.x w.kk
  rw [encodeXKK_fields] at hmask
  rw [hmask, Encoding.encodeXKK_toNat]
  simp

theorem and_xyn_mask_toNat (w : Word) : (w &&& 0xF00F).toNat = w.family.toNat * 0x1000 + w.n.toNat := by
  have hmask := encodeXY_mask w.family w.x w.y w.n
  rw [encodeXYN_fields] at hmask
  rw [hmask, Encoding.encodeXYN_toNat]
  simp

theorem and_word_mask_toNat (w : Word) : (w &&& 0xFFFF).toNat = w.family.toNat * 0x1000 + w.nnn.toNat := by
  have hmask : w &&& 0xFFFF = w := BitVec.and_allOnes
  rw [hmask, ← Encoding.encodeNNN_toNat, encodeNNN_fields]

/-- Each row's pattern fixes the fields that the six sets of rule R82 exclude. -/
theorem matchesWord_of_unknown {w : Word} (h : decodeWord w = none) : ∀ r ∈ opcodeTable, ¬r.matchesWord w = true := by
  have hunknown := decodeWord_eq_none_iff_fields.mp h
  have hnnn := w.nnn.isLt
  have hkk := w.kk.isLt
  have hn := w.n.isLt
  simp only [List.mem_cons, List.not_mem_nil, or_false, not_or] at hunknown
  simp only [opcodeTable, opcodeRowsLow, opcodeRowsAlu, opcodeRowsMid, opcodeRowsHigh, List.cons_append, List.nil_append,
    List.forall_mem_cons, OpcodeRow.matchesWord, beq_iff_eq, ← BitVec.toNat_inj, and_nnn_mask_toNat, and_xkk_mask_toNat,
    and_xyn_mask_toNat, and_word_mask_toNat, BitVec.reduceToNat, List.not_mem_nil, false_imp_iff, implies_true, and_true]
  and_intros
  all_goals omega

/-- An instruction's word matches the instruction's row and no other. -/
theorem filter_opcodeTable_of_decodeWord {w : Word} {i : Instr} (h : decodeWord w = some i) :
    opcodeTable.filter (fun r => r.matchesWord w) = [i.row] := by
  obtain ⟨hw, _⟩ := encodes_of_decodeWord h
  obtain ⟨hmem, hmatch⟩ := Laws.TableRow.all i
  exact filter_eq_singleton (opcodeTable_exclusive w) hmem (hw ▸ hmatch)

/-- Settles O5: the rows exclude each other, an instruction's word matches its own row, and an unknown word matches none. -/
theorem oneTableRowPerWord : Obligations.OneTableRowPerWord := by
  refine ⟨by decide, fun w => ?_⟩
  split
  · exact filter_opcodeTable_of_decodeWord ‹_›
  · exact List.filter_eq_nil_iff.mpr (matchesWord_of_unknown ‹_›)

end Sys2Proof.Proofs.Words

namespace Sys2Proof.Proofs.Frames

open Sys2Proof Sys2Proof.Machine

/-! ## The two ends of every instruction: the fault it may raise, or its frame -/

/-- The pieces that an instruction writes from s when it does not fault; of the stack, every entry for 2nnn. -/
def written (s : State) : Instr → List Piece
  | .cls => [.display]
  | .ret => [.stackPointer, .pc]
  | .call _ => .stackPointer :: .pc :: (List.finRange 16).map Piece.entry
  | .jp _ | .jpV0 _ | .seByte _ _ | .sneByte _ _ | .seReg _ _ | .sneReg _ _ | .skp _ | .sknp _ => [.pc]
  | .ldByte x _ | .addByte x _ | .ldReg x _ | .orReg x _ | .andReg x _ | .xorReg x _ | .rnd x _ | .ldVxDT x => [.reg x]
  | .addReg x _ | .subReg x _ | .shr x _ | .subnReg x _ | .shl x _ => [.reg x, .reg 15]
  | .ldVxK x => [.reg x, .pc]
  | .drw _ _ _ => [.display, .reg 15]
  | .ldDTVx _ => [.delay]
  | .ldSTVx _ => [.sound]
  | .ldI _ | .addIVx _ | .ldFVx _ => [.index]
  | .ldBVx _ => bytesFrom s.i.toNat 3
  | .ldMemVx x => .index :: bytesFrom s.i.toNat (x.val + 1)
  | .ldVxMem x => .index :: regsUpTo x

/-- Of a cycle of i from s to t: it recorded a fault that i may raise and did nothing else, or it wrote what i writes and nothing
else (rules R95 and R143). -/
def Effect (i : Instr) (s t : State) : Prop :=
  (∃ r : Raised, mayRaise i r.kind ∧ t = s.raise r) ∨ OnlyWrites (written s i) s t

/-- The cycle of i from s answers a next state with such an effect. -/
def Answers (i : Instr) (s : State) : Prop := ∃ t, exec i s = .next t ∧ Effect i s t

theorem answers_raise {i : Instr} {s : State} {r : Raised} (h : exec i s = .next (s.raise r)) (hr : mayRaise i r.kind) :
    Answers i s :=
  ⟨_, h, .inl ⟨r, hr, rfl⟩⟩

theorem answers_onlyWrites {i : Instr} {s t : State} (h : exec i s = .next t) (ht : OnlyWrites (written s i) s t) :
    Answers i s :=
  ⟨_, h, .inr ht⟩

/-- A frame may list more pieces than are written. -/
theorem onlyWrites_mono {ps qs : List Piece} {s t : State} (h : OnlyWrites ps s t) (hsub : ps ⊆ qs) : OnlyWrites qs s t :=
  fun p hp => h p fun hmem => hp (hsub hmem)

theorem skipIf_onlyWrites (s : State) (c : Bool) : OnlyWrites [.pc] s (s.prologue.skipIf c) :=
  Control.setPc_onlyWrites s _

theorem ret_answers (s : State) : Answers .ret s := by
  rcases State.pop_cases s ⟨.stackUnderflow, 0⟩ with ⟨j, _, hsp, _⟩ | ⟨hsp, _⟩
  · exact answers_onlyWrites (Control.exec_ret hsp) (Control.returned_onlyWrites s j)
  · exact answers_raise (Control.exec_ret_empty hsp) rfl

theorem call_answers (nnn : Addr12) (s : State) : Answers (.call nnn) s := by
  rcases State.push_cases s s.pc ⟨.stackOverflow, addrOperand nnn⟩ with ⟨hsp, _⟩ | ⟨hsp, _⟩
  · refine answers_onlyWrites (Control.exec_call (j := ⟨s.sp.val, hsp⟩) rfl nnn)
      (onlyWrites_mono (Control.called_onlyWrites s _ nnn) ?_)
    simp [written]
  · exact answers_raise (Control.exec_call_full hsp nnn) rfl

theorem drw_answers (x y : Reg) (n : Nat) (s : State) : Answers (.drw x y n) s := by
  rcases State.readBytes_cases s s.i.toNat n with ⟨hfit, _⟩ | ⟨⟨hpos, hout⟩, _⟩
  · exact answers_onlyWrites (Display.exec_drw_ok hfit x y) (Display.afterDraw_onlyWrites s x y n)
  · exact answers_raise (Display.exec_drw_error hpos hout x y) rfl

theorem keySkips_answers_ok {x : Reg} {s : State} {down : Bool} (h : s.keyDown (s.reg x) = .ok down) :
    Answers (.skp x) s ∧ Answers (.sknp x) s := by
  obtain ⟨hskp, hsknp⟩ := KeysTimers.exec_keySkips_ok h
  exact ⟨answers_onlyWrites hskp (skipIf_onlyWrites s down), answers_onlyWrites hsknp (skipIf_onlyWrites s (!down))⟩

theorem keySkips_answers (x : Reg) (s : State) : Answers (.skp x) s ∧ Answers (.sknp x) s := by
  rcases State.keyDown_cases s (s.reg x) with ⟨_, hkey⟩ | ⟨_, _, hkey⟩ | ⟨_, _, hkey⟩ | ⟨_, _, hkey⟩
  · exact keySkips_answers_ok hkey
  · obtain ⟨hskp, hsknp⟩ := KeysTimers.exec_keySkips_error hkey
    exact ⟨answers_raise hskp rfl, answers_raise hsknp rfl⟩
  · exact keySkips_answers_ok hkey
  · exact keySkips_answers_ok hkey

theorem ldVxK_answers (x : Reg) (s : State) : Answers (.ldVxK x) s := by
  rcases lowestDown_spec s.input.keys with ⟨_, hzero⟩ | ⟨k, hk, _⟩
  · refine answers_onlyWrites (KeysTimers.exec_ldVxK_wait hzero x) (onlyWrites_mono (Control.setPc_onlyWrites s _) ?_)
    simp [written]
  · refine answers_onlyWrites (KeysTimers.exec_ldVxK_take hk x) (onlyWrites_mono (Alu.setReg_onlyWrites s x _) ?_)
    simp [written]

theorem ldBVx_answers (x : Reg) (s : State) : Answers (.ldBVx x) s := by
  rcases State.writeBytes_cases s.prologue s.i.toNat (Index.bcdDigits_ne_nil (s.reg x)) with
    ⟨⟨hfit, hl⟩, _⟩ | ⟨_, hw⟩ | ⟨_, hw⟩
  · exact answers_onlyWrites (Index.exec_ldBVx_ok (Index.writeBytes_stored hfit hl)) (Index.stored_onlyWrites s (bcdDigits _))
  · exact answers_raise (Index.exec_ldBVx_error hw) (.inl rfl)
  · exact answers_raise (Index.exec_ldBVx_error hw) (.inr rfl)

theorem ldMemVx_answers (x : Reg) (s : State) : Answers (.ldMemVx x) s := by
  rcases State.writeBytes_cases s.prologue s.i.toNat (Index.regBlock_ne_nil s x) with ⟨⟨hfit, hl⟩, _⟩ | ⟨_, hw⟩ | ⟨_, hw⟩
  · have hframe := Index.setI_onlyWrites (Index.stored_onlyWrites s (s.regBlock x)) (BitVec.ofNat 16 (s.indexed (x.val + 1)))
    rw [State.regBlock_length] at hframe
    exact answers_onlyWrites (Index.exec_ldMemVx_ok (Index.writeBytes_stored hfit hl)) hframe
  · exact answers_raise (Index.exec_ldMemVx_error hw) (.inl rfl)
  · exact answers_raise (Index.exec_ldMemVx_error hw) (.inr rfl)

theorem ldVxMem_answers (x : Reg) (s : State) : Answers (.ldVxMem x) s := by
  rcases Nat.lt_or_ge (s.i.toNat + x.val) 4096 with hfit | hout
  · exact answers_onlyWrites (Index.exec_ldVxMem_ok hfit) (Index.setI_onlyWrites (Index.loaded_onlyWrites s x) _)
  · exact answers_raise (Index.exec_ldVxMem_error hout) rfl

/-- WHAT AN INSTRUCTION CAN DO, for all 34: it answers a next state, by a fault it may raise or within its frame. -/
theorem exec_answers (i : Instr) (s : State) : Answers i s := by
  cases i with
  | cls => exact answers_onlyWrites (Display.exec_cls s) (Display.setFb_onlyWrites (Index.prologue_onlyWrites s) _)
  | ret => exact ret_answers s
  | call nnn => exact call_answers nnn s
  | jp | jpV0 | seByte | sneByte | seReg | sneReg => exact answers_onlyWrites rfl (Control.setPc_onlyWrites s _)
  | ldByte | addByte | ldReg | orReg | andReg | xorReg | rnd | ldVxDT =>
    exact answers_onlyWrites rfl (Alu.setReg_onlyWrites s _ _)
  | addReg | subReg | shr | subnReg | shl => exact answers_onlyWrites rfl (Alu.setWithFlag_onlyWrites s _ _ _)
  | ldI | addIVx | ldFVx => exact answers_onlyWrites rfl (Index.setI_onlyWrites (Index.prologue_onlyWrites s) _)
  | drw x y n => exact drw_answers x y n s
  | skp x => exact (keySkips_answers x s).1
  | sknp x => exact (keySkips_answers x s).2
  | ldVxK x => exact ldVxK_answers x s
  | ldDTVx => exact answers_onlyWrites rfl (KeysTimers.setDt_onlyWrites s _)
  | ldSTVx => exact answers_onlyWrites rfl (KeysTimers.setSt_onlyWrites s _)
  | ldBVx x => exact ldBVx_answers x s
  | ldMemVx x => exact ldMemVx_answers x s
  | ldVxMem x => exact ldVxMem_answers x s

theorem exec_next {i : Instr} {s t : State} (h : exec i s = .next t) : Effect i s t := by
  obtain ⟨u, hu, hout⟩ := exec_answers i s
  cases hu.symm.trans h
  exact hout

/-! ## Who writes which piece -/

/-- A piece that the instruction does not write is kept, when a fault keeps it too. -/
theorem exec_keeps {i : Instr} {s t : State} {p : Piece} (h : exec i s = .next t) (hp : p ∉ written s i)
    (hraise : ∀ r, p.kept s (s.raise r)) : p.kept s t := by
  rcases exec_next h with ⟨r, _, rfl⟩ | hframe
  · exact hraise r
  · exact hframe p hp

theorem reg_mem_written {i : Instr} {s : State} {r : Reg} : .reg r ∈ written s i ↔ r ∈ writtenRegs i := by
  cases i with
  | call | ldBVx | ldMemVx => simp [written, writtenRegs, bytesFrom]
  | ldVxMem x => simp [written, writtenRegs, Index.reg_mem_regsUpTo]
  | _ => simp [written, writtenRegs, Reg.vf]

theorem index_writer_of_mem {i : Instr} {s : State} (h : .index ∈ written s i) :
    (∃ nnn, i = .ldI nnn) ∨ ∃ x, i = .addIVx x ∨ i = .ldFVx x ∨ i = .ldMemVx x ∨ i = .ldVxMem x := by
  cases i <;> simp [written, bytesFrom] at h ⊢

theorem stackPointer_writer_of_mem {i : Instr} {s : State} (h : .stackPointer ∈ written s i) :
    (∃ nnn, i = .call nnn) ∨ i = .ret := by
  cases i <;> simp [written, bytesFrom, regsUpTo] at h ⊢

theorem entry_writer_of_mem {i : Instr} {s : State} {j : Fin 16} (h : .entry j ∈ written s i) : ∃ nnn, i = .call nnn := by
  cases i <;> simp [written, bytesFrom, regsUpTo] at h ⊢

theorem byte_writer_of_mem {i : Instr} {s : State} {a : Nat} (h : .byte a ∈ written s i) : ∃ x : Reg,
    (i = .ldBVx x ∧ s.i.toNat ≤ a ∧ a < s.i.toNat + 3) ∨ (i = .ldMemVx x ∧ s.i.toNat ≤ a ∧ a ≤ s.i.toNat + x.val) := by
  cases i with
  | ldBVx x => exact ⟨x, .inl ⟨rfl, Index.byte_mem_bytesFrom.mp h⟩⟩
  | ldMemVx x =>
    have hmem : Piece.byte a ∈ bytesFrom s.i.toNat (x.val + 1) := by simpa [written] using h
    obtain ⟨hle, hlt⟩ := Index.byte_mem_bytesFrom.mp hmem
    exact ⟨x, .inr ⟨rfl, hle, Nat.le_of_lt_succ hlt⟩⟩
  | _ => simp [written, regsUpTo] at h

theorem config_not_written (i : Instr) (s : State) : Piece.config ∉ written s i := by
  cases i <;> simp [written, bytesFrom, regsUpTo]

theorem faultRecord_not_written (i : Instr) (s : State) : Piece.faultRecord ∉ written s i := by
  cases i <;> simp [written, bytesFrom, regsUpTo]

/-- Settles O41: a general register outside the list is no written piece, and a fault keeps all of them. -/
theorem generalRegisterWriters : Obligations.GeneralRegisterWriters := fun _ _ _ r h hr =>
  exec_keeps (p := .reg r) h (mt reg_mem_written.mp hr) fun _ => rfl

/-- Settles O42: each of the pieces is kept where it is not written, and a fault keeps all of them. -/
theorem indexAndStackWriters : Obligations.IndexAndStackWriters := by
  refine fun i s t h => ⟨fun hne => ?_, fun hne => ?_, fun ⟨j, hne⟩ => ?_, ?_⟩
  · by_contra hother
    exact hne (exec_keeps (p := .index) h (mt index_writer_of_mem hother) fun _ => rfl)
  · by_contra hother
    exact hne (exec_keeps (p := .stackPointer) h (mt stackPointer_writer_of_mem hother) fun _ => rfl)
  · by_contra hother
    exact hne (exec_keeps (p := .entry j) h (mt entry_writer_of_mem hother) fun _ => rfl)
  · exact exec_keeps (p := .config) h (config_not_written i s) fun _ => rfl

/-- Settles O43: only the two stores have bytes among the pieces they write. -/
theorem memoryWriters : Obligations.MemoryWriters := by
  intro i s t a h hne
  by_contra hother
  exact hne (exec_keeps (p := .byte a) h (mt byte_writer_of_mem hother) fun _ => rfl)

/-! ## The low region (decision D7) -/

/-- A store that begins below 0x200 faults under FAULT, so an instruction that changes a byte stores from 0x200 on. -/
theorem exec_keeps_low {i : Instr} {s t : State} {a : Nat} (hl : s.cfg.lowWrite = .fault) (h : exec i s = .next t)
    (ha : a < 0x200) : t.byteAt a = s.byteAt a := by
  by_contra hne
  obtain ⟨x, ⟨rfl, hle, _⟩ | ⟨rfl, hle, _⟩⟩ := memoryWriters i s t a h hne
  · have hraise := Index.exec_ldBVx_error (x := x) (Index.writeBytes_below (Index.bcdDigits_ne_nil _) (by omega) hl)
    cases hraise.symm.trans h
    exact hne rfl
  · have hraise := Index.exec_ldMemVx_error (x := x) (Index.writeBytes_below (Index.regBlock_ne_nil s x) (by omega) hl)
    cases hraise.symm.trans h
    exact hne rfl

/-- Settles O45, by the four cases of a step; only an instruction writes memory. -/
theorem lowMemoryNeverOverwritten : Obligations.LowMemoryNeverOverwritten := by
  intro s t a hl hstep ha
  rcases step_cases hstep with ⟨_, rfl⟩ | ⟨_, _, rfl⟩ | ⟨_, _, _, _, rfl⟩ | ⟨_, i, u, _, _, _, hu, rfl⟩
  · rfl
  · rfl
  · rfl
  · exact (State.takeInput_byteAt u a).trans (exec_keeps_low hl hu ha)

/-! ## Faults (rules R95, R143 and R144) -/

/-- An instruction that leaves a running core halted did nothing but record a fault it may raise. -/
theorem exec_halts {i : Instr} {s t : State} (hrun : s.halted = false) (h : exec i s = .next t) (ht : t.halted = true) :
    ∃ r : Raised, mayRaise i r.kind ∧ t = s.raise r := by
  rcases exec_next h with hraise | hframe
  · exact hraise
  · obtain ⟨hcode, _⟩ := hframe .faultRecord (faultRecord_not_written i s)
    have hkept : t.halted = s.halted := congrArg (· != 0) hcode
    rw [hkept, hrun] at ht
    cases ht

/-- Settles O13: a running core is halted only by the fault the instruction raises. -/
theorem faultsComeFromTheirInstructions : Obligations.FaultsComeFromTheirInstructions := by
  intro i s t hrun h ht
  obtain ⟨r, hmay, rfl⟩ := exec_halts hrun h ht
  exact ⟨r.kind, hmay, rfl⟩

/-- A step that leaves a running core halted did nothing but record a fault and use up the input. -/
theorem step_halts {s t : State} (hrun : s.halted = false) (h : step s = .next t) (ht : t.halted = true) :
    ∃ r : Raised, t = (s.raise r).takeInput := by
  rcases step_cases h with ⟨hs, _⟩ | ⟨_, _, rfl⟩ | ⟨_, _, _, _, rfl⟩ | ⟨_, i, u, _, _, _, hu, rfl⟩
  · simp [hrun] at hs
  · exact ⟨_, rfl⟩
  · simp [hrun] at ht
  · obtain ⟨r, _, rfl⟩ := exec_halts hrun hu ht
    exact ⟨r, rfl⟩

/-- Settles O12: the step is a raise on the state before it, and the codes of rule R143 are 1 to 7. -/
theorem faultIsPrecise : Obligations.FaultIsPrecise := by
  intro s t hrun h ht
  obtain ⟨r, rfl⟩ := step_halts hrun h ht
  obtain ⟨hne, hle⟩ := Control.faultCode_range r.kind
  have hpos : 1 ≤ r.kind.code.toNat := Nat.one_le_iff_ne_zero.mpr fun h0 => hne (BitVec.eq_of_toNat_eq h0)
  exact ⟨rfl, hpos, hle⟩

/-! ## The flag instructions (rule R20) -/

theorem flagByte_zero_or_one (c : Bool) : flagByte c = 0 ∨ flagByte c = 1 := by
  cases c <;> decide

theorem setWithFlag_flagByte_reg_vf (s : State) (x : Reg) (result : Byte) (c : Bool) :
    (s.setWithFlag x result (flagByte c)).reg 15 = 0 ∨ (s.setWithFlag x result (flagByte c)).reg 15 = 1 := by
  rw [Alu.setWithFlag_reg_vf]
  exact flagByte_zero_or_one c

/-- Settles O40: VF is written last, with a flag. -/
theorem flagInstructionsLeaveZeroOrOne : Obligations.FlagInstructionsLeaveZeroOrOne := by
  rintro i s t _ h ht ⟨x, y, rfl | rfl | rfl | rfl | rfl | ⟨n, rfl⟩⟩
  · cases (Alu.exec_addReg x y s).symm.trans h
    exact setWithFlag_flagByte_reg_vf _ x _ _
  · cases (Alu.exec_subReg x y s).symm.trans h
    exact setWithFlag_flagByte_reg_vf _ x _ _
  · cases (Alu.exec_shr x y s).symm.trans h
    exact setWithFlag_flagByte_reg_vf _ x _ _
  · cases (Alu.exec_subnReg x y s).symm.trans h
    exact setWithFlag_flagByte_reg_vf _ x _ _
  · cases (Alu.exec_shl x y s).symm.trans h
    exact setWithFlag_flagByte_reg_vf _ x _ _
  · rcases State.readBytes_cases s s.i.toNat n with ⟨hfit, _⟩ | ⟨⟨hpos, hout⟩, _⟩
    · cases (Display.exec_drw_ok hfit x y).symm.trans h
      rw [Display.afterDraw_reg_vf]
      exact flagByte_zero_or_one _
    · cases (Display.exec_drw_error hpos hout x y).symm.trans h
      simp at ht

end Sys2Proof.Proofs.Frames

namespace Sys2Proof.Proofs.Steps

open Sys2Proof Sys2Proof.Machine

/-! ## The four cases of a cycle, each with its outcome and its event (rules R87, R88, R92 and R96) -/

theorem cycle_halted {s : State} (h : s.halted = true) : cycle s = ⟨.next s.takeInput, none⟩ := by
  simp [cycle, h]

theorem cycle_fetch_error {s : State} {r : Raised} (hrun : s.halted = false) (hf : s.fetch = .error r) :
    cycle s = ⟨.next (s.raise r).takeInput, none⟩ := by
  simp [cycle, hrun, hf]

theorem cycle_unknown {s : State} {w : Word} (hrun : s.halted = false) (hw : s.fetch = .ok w) (hd : decodeWord w = none) :
    cycle s = ⟨.next s.prologue.takeInput, some ⟨s.pc, w⟩⟩ := by
  simp [cycle, hrun, hw, hd]

theorem cycle_instr {s t : State} {w : Word} {i : Instr} (hrun : s.halted = false) (hw : s.fetch = .ok w)
    (hd : decodeWord w = some i) (hx : exec i s = .next t) : cycle s = ⟨.next t.takeInput, none⟩ := by
  simp [cycle, hrun, hw, hd, hx, endCycle]

theorem step_of_cycle {s t : State} {e : Option UnknownEvent} (h : cycle s = ⟨.next t, e⟩) :
    step s = .next t ∧ (cycle s).event = e := by
  rw [step, h]
  exact ⟨rfl, rfl⟩

/-! ## Every instruction and every step answers (decisions D2 and D3) -/

theorem exec_next_exists (i : Instr) (s : State) : ∃ t, exec i s = .next t :=
  (Frames.exec_answers i s).imp fun _ h => h.1

theorem cycle_next_exists (s : State) : ∃ t e, cycle s = ⟨.next t, e⟩ := by
  cases hrun : s.halted with
  | true => exact ⟨_, _, cycle_halted hrun⟩
  | false =>
    cases hf : s.fetch with
    | error r => exact ⟨_, _, cycle_fetch_error hrun hf⟩
    | ok w =>
      cases hd : decodeWord w with
      | none => exact ⟨_, _, cycle_unknown hrun hf hd⟩
      | some i =>
        obtain ⟨t, ht⟩ := exec_next_exists i s
        exact ⟨_, _, cycle_instr hrun hf hd ht⟩

theorem step_next_exists (s : State) : ∃ t, step s = .next t := by
  obtain ⟨t, _, h⟩ := cycle_next_exists s
  exact ⟨t, (step_of_cycle h).1⟩

/-- Settles O9: no instruction and none of the four cases of a cycle answers anything else. -/
theorem everyStepAnswersNext : Obligations.EveryStepAnswersNext := ⟨exec_next_exists, step_next_exists⟩

/-! ## A decoded instruction -/

/-- No instruction takes an input from the queue; the cycle does, after it. -/
theorem exec_takeInput {i : Instr} {s t : State} (h : exec i s = .next t) :
    t.takeInput = { t with inputs := s.inputs.tail, draws := s.draws + 1 } := by
  have hnot : Piece.inputs ∉ Frames.written s i := by
    cases i <;> simp [Frames.written, bytesFrom, regsUpTo]
  obtain ⟨hinputs, hdraws⟩ : t.inputs = s.inputs ∧ t.draws = s.draws :=
    Frames.exec_keeps (p := .inputs) h hnot fun _ => ⟨rfl, rfl⟩
  rw [State.takeInput, hinputs, hdraws]

/-- Settles O8, the last of the four cases of a cycle. -/
theorem stepRunsDecodedInstruction : Obligations.StepRunsDecodedInstruction := by
  intro s w i hrun hw hd
  obtain ⟨t, ht⟩ := exec_next_exists i s
  obtain ⟨hstep, hevent⟩ := step_of_cycle (cycle_instr hrun hw hd ht)
  rw [exec_takeInput ht] at hstep
  exact ⟨⟨t, ht, hstep⟩, (Words.encodes_of_decodeWord hd).2, hevent⟩

/-! ## An unknown word (rules R82 and R150) -/

theorem prologue_takeInput_onlyWrites (s : State) : OnlyWrites [.inputs] s s.prologue.takeInput := by
  intro p hp
  have hkept := Control.prologue_kept s p
  cases p with
  | inputs => simp at hp
  | _ => exact hkept

/-- Settles O4: the six sets, and the third of the four cases of a cycle. -/
theorem unknownWordsExactly : Obligations.UnknownWordsExactly := by
  refine ⟨fun w => Words.decodeWord_eq_none_iff, fun s w hrun hw hd => ?_⟩
  obtain ⟨hstep, hevent⟩ := step_of_cycle (cycle_unknown hrun hw hd)
  exact ⟨⟨_, hstep, prologue_takeInput_onlyWrites s⟩, hevent⟩

/-! ## A PC outside memory (rule R88) -/

/-- The first of the two fetched addresses that is out of range, as a number. -/
theorem fetch_info_eq {pc : Word} : (if pc.toNat ≥ 0x1000 then pc else 0x1000) = BitVec.ofNat 16 (max pc.toNat 0x1000) := by
  split
  · rw [Nat.max_eq_left ‹_›, BitVec.ofNat_toNat, BitVec.setWidth_eq]
  · rw [Nat.max_eq_right (by omega)]
    rfl

/-- Settles O11, the second of the four cases of a cycle. -/
theorem fetchOutsideMemoryFaults : Obligations.FetchOutsideMemoryFaults := by
  intro s hrun hpc
  have hfetch := State.fetch_error hpc
  rw [fetch_info_eq] at hfetch
  exact step_of_cycle (cycle_fetch_error hrun hfetch)

/-! ## A halted core (rule R87, decision D3) -/

theorem run_succ {M : Host.Core} {s t : M.State} (h : M.step s = .next t) (k : Nat) : M.run (k + 1) s = M.run k t := by
  simp only [Host.Core.run, h]

theorem run_halted (k : Nat) {s : State} (h : s.halted = true) : Host.Core.run Sys2Proof.core k s =
    .next { s with inputs := s.inputs.drop k, draws := s.draws + k } := by
  induction k generalizing s with
  | zero => rfl
  | succ k ih =>
    have hstep : Sys2Proof.core.step s = .next s.takeInput := (step_of_cycle (cycle_halted h)).1
    refine (run_succ hstep k).trans ((ih (s := s.takeInput) h).trans ?_)
    simp [State.takeInput, Nat.add_assoc, Nat.add_comm 1]

/-- Settles O10: each cycle of a halted core only uses up an input and leaves the core halted. -/
theorem haltedCoreStaysHalted : Obligations.HaltedCoreStaysHalted := fun _ k h =>
  ⟨(step_of_cycle (cycle_halted h)).2, _, run_halted k h, rfl⟩

end Sys2Proof.Proofs.Steps

namespace Sys2Proof.Proofs.Unread

open Sys2Proof Sys2Proof.Machine

/-! ## Changing the pieces that an instruction does not read

A noninterference statement is a diagram: the state is changed before the cycle or after it, with the same result. One kind of
change, of ST, the fault record and the input fields, serves both statements. -/

/-- A change of ST, the fault record and the input fields, each by a map of its own. -/
structure Change where
  st : Byte → Byte
  faultCode : BitVec 4 → BitVec 4
  faultPc : Word → Word
  faultInfo : Word → Word
  inputs : List CycleInput → List CycleInput
  draws : Nat → Nat

/-- The state after the change. -/
def Change.apply (c : Change) (s : State) : State :=
  { s with
    st := c.st s.st, faultCode := c.faultCode s.faultCode, faultPc := c.faultPc s.faultPc, faultInfo := c.faultInfo s.faultInfo,
    inputs := c.inputs s.inputs, draws := c.draws s.draws }

/-- The body makes the same of the changed state as of the state, changed. -/
def Commutes (c : Change) (body : State → Except Raised State) : Prop := ∀ s, body (c.apply s) = (body s).map c.apply

/-! ### The shared operations -/

variable (c : Change)

theorem memWrite_commutes (a : Nat) (b : Byte) : Commutes c (fun s => s.memWrite a b) := by
  intro s
  have hcfg : (c.apply s).cfg = s.cfg := rfl
  simp only [State.memWrite, hcfg]
  split_ifs <;> rfl

theorem writeBytes_commutes (bs : List Byte) : ∀ a, Commutes c (fun s => s.writeBytes a bs) := by
  induction bs with
  | nil => exact fun a s => rfl
  | cons b bs ih =>
    intro a s
    have hwrite : (c.apply s).memWrite a b = (s.memWrite a b).map c.apply := memWrite_commutes c a b s
    simp only [State.writeBytes, hwrite]
    cases s.memWrite a b with
    | error r => rfl
    | ok t => exact ih (a + 1) t

theorem readBytes_apply (s : State) (n : Nat) : ∀ a, (c.apply s).readBytes a n = s.readBytes a n := by
  induction n with
  | zero => exact fun a => rfl
  | succ n ih =>
    intro a
    have hread : (c.apply s).memRead a = s.memRead a := rfl
    simp only [State.readBytes, hread, ih]

theorem setRegs_apply (bs : List Byte) : ∀ (s : State) (k : Nat), (c.apply s).setRegs k bs = c.apply (s.setRegs k bs) := by
  induction bs with
  | nil => exact fun s k => rfl
  | cons b bs ih => exact fun s k => ih (s.setReg (Fin.ofNat 16 k) b) (k + 1)

theorem push_apply (s : State) (w : Word) (r : Raised) : (c.apply s).push w r = (s.push w r).map c.apply := by
  have hsp : (c.apply s).sp = s.sp := rfl
  simp only [State.push, hsp]
  split_ifs <;> rfl

theorem pop_commutes (r : Raised) : Commutes c (fun s => s.pop r) := by
  intro s
  rcases hs : s with ⟨v, i, pc, stack, ⟨_ | n, hn⟩, dt, st, fb, mem, code, fpc, info, cfg, inputs, draws⟩ <;> rfl

theorem keyDown_apply {c : Change} {s : State} (hin : (c.apply s).input = s.input) (x : Reg) :
    (c.apply s).keyDown ((c.apply s).reg x) = s.keyDown (s.reg x) := by
  have hreg : (c.apply s).reg x = s.reg x := rfl
  have hcfg : (c.apply s).cfg = s.cfg := rfl
  simp only [State.keyDown, hin, hreg, hcfg]

/-! ### The instructions -/

/-- The instructions that the inputs of the cycle do not concern (decisions D10 and D11). -/
def ReadsNoInput (i : Instr) : Prop := ∀ x, i ≠ .skp x ∧ i ≠ .sknp x ∧ i ≠ .ldVxK x ∧ ∀ kk, i ≠ .rnd x kk

/-- The cycle from s' does as the cycle from s, changed: it commits the changed state, or raises the same fault. -/
def Follows (c : Change) (i : Instr) (s s' t : State) : Prop :=
  exec i s' = .next (c.apply t) ∨ ∃ r, t = s.raise r ∧ exec i s' = .next (s'.raise r)

theorem runBody_follows {c : Change} {body : State → Except Raised State} {s s' t : State} (hbody : Commutes c body)
    (hs : s'.prologue = c.apply s.prologue) (h : runBody body s = .next t) :
    runBody body s' = .next (c.apply t) ∨ ∃ r, t = s.raise r ∧ runBody body s' = .next (s'.raise r) := by
  have hcommute : body s'.prologue = (body s.prologue).map c.apply := by rw [hs, hbody]
  rcases runBody_next h with hok | ⟨r, herror, rfl⟩
  · rw [hok] at hcommute
    exact .inl (runBody_ok hcommute)
  · rw [herror] at hcommute
    exact .inr ⟨r, rfl, runBody_error hcommute⟩

theorem exec_follows {c : Change} {i : Instr} {s s' t : State} (hs : s'.prologue = c.apply s.prologue)
    (hst : (∀ b, c.st b = b) ∨ ∀ x, i ≠ .ldSTVx x) (hin : (∀ u, (c.apply u).input = u.input) ∨ ReadsNoInput i)
    (h : exec i s = .next t) : Follows c i s s' t := by
  unfold Follows
  unfold exec at h ⊢
  cases i with
  | ret => exact runBody_follows (pop_commutes c _) hs h
  | call nnn =>
    refine runBody_follows (fun u => ?_) hs h
    have hpush := push_apply c u u.pc ⟨.stackOverflow, addrOperand nnn⟩
    have hpc : (c.apply u).pc = u.pc := rfl
    simp only [hpc, hpush]
    cases u.push u.pc ⟨.stackOverflow, addrOperand nnn⟩ <;> rfl
  | drw x y n =>
    refine runBody_follows (fun u => ?_) hs h
    have hread := readBytes_apply c u n (u.indexed 0)
    have hindex : (c.apply u).indexed 0 = u.indexed 0 := rfl
    simp only [hindex, hread]
    cases u.readBytes (u.indexed 0) n <;> rfl
  | ldVxMem x =>
    refine runBody_follows (fun u => ?_) hs h
    have hread := readBytes_apply c u (x.val + 1) (u.indexed 0)
    have hindex (k : Nat) : (c.apply u).indexed k = u.indexed k := rfl
    simp only [hindex, hread]
    cases u.readBytes (u.indexed 0) (x.val + 1) with
    | error r => rfl
    | ok bs =>
      simp only [setRegs_apply]
      rfl
  | ldBVx x => exact runBody_follows (fun u => writeBytes_commutes c (bcdDigits (u.reg x)) (u.indexed 0) u) hs h
  | ldMemVx x =>
    refine runBody_follows (fun u => ?_) hs h
    have hwrite : (c.apply u).writeBytes ((c.apply u).indexed 0) ((c.apply u).regBlock x) =
        (u.writeBytes (u.indexed 0) (u.regBlock x)).map c.apply := writeBytes_commutes c (u.regBlock x) (u.indexed 0) u
    simp only [hwrite]
    cases u.writeBytes (u.indexed 0) (u.regBlock x) <;> rfl
  | skp x =>
    have hinput := hin.resolve_right fun hno => (hno x).1 rfl
    refine runBody_follows (fun u => ?_) hs h
    simp only [keyDown_apply (hinput u)]
    cases u.keyDown (u.reg x) <;> rfl
  | sknp x =>
    have hinput := hin.resolve_right fun hno => (hno x).2.1 rfl
    refine runBody_follows (fun u => ?_) hs h
    simp only [keyDown_apply (hinput u)]
    cases u.keyDown (u.reg x) <;> rfl
  | ldVxK x =>
    have hinput := hin.resolve_right fun hno => (hno x).2.2.1 rfl
    refine runBody_follows (fun u => ?_) hs h
    simp only [hinput]
    cases lowestDown u.input.keys <;> rfl
  | rnd x kk =>
    have hinput := hin.resolve_right fun hno => (hno x).2.2.2 kk rfl
    refine runBody_follows (fun u => ?_) hs h
    simp only [hinput]
    rfl
  | ldSTVx x =>
    have hkeep := hst.resolve_right fun hno => hno x rfl
    refine runBody_follows (fun u => ?_) hs h
    exact congrArg (fun b => Except.ok { c.apply u with st := b }) (hkeep (u.reg x)).symm
  | _ => exact runBody_follows (fun u => rfl) hs h

/-- Other input fields. -/
def inputsTo (ins : List CycleInput) (d : Nat) : Change := ⟨id, id, id, id, fun _ => ins, fun _ => d⟩

/-- Another ST and another fault record. -/
def soundAndRecordTo (b : Byte) (code : BitVec 4) (p q : Word) : Change :=
  ⟨fun _ => b, fun _ => code, fun _ => p, fun _ => q, id, id⟩

/-- Settles O46: the change of the input fields commutes with the advance, the tick and a fault, and with every body that reads no
input. -/
theorem inputsReadOnlyByKeyAndRandom : Obligations.InputsReadOnlyByKeyAndRandom := by
  intro i s t ins d hno h
  rcases exec_follows (c := inputsTo ins d) (s' := (inputsTo ins d).apply s) rfl (.inl fun _ => rfl) (.inr hno) h with
    hcommit | ⟨r, rfl, hraise⟩
  · exact hcommit
  · exact hraise

/-- Settles O47: the change of ST and the fault record commutes with every body but that of Fx18, which writes ST and reads
neither; after the tick the new ST is ticked. -/
theorem soundTimerAndFaultRecordAreNotRead : Obligations.SoundTimerAndFaultRecordAreNotRead := by
  intro i s t b code p q h
  by_cases hst : ∃ x, i = .ldSTVx x
  · obtain ⟨x, rfl⟩ := hst
    cases (KeysTimers.exec_ldSTVx x s).symm.trans h
    exact ⟨_, KeysTimers.exec_ldSTVx x _, rfl⟩
  · rcases exec_follows (c := soundAndRecordTo (tick b) code p q) (s' := (soundAndRecordTo b code p q).apply s) rfl
      (.inr (not_exists.mp hst)) (.inl fun _ => rfl) h with hcommit | ⟨r, rfl, hraise⟩
    · exact ⟨_, hcommit, rfl⟩
    · exact ⟨_, hraise, rfl⟩

end Sys2Proof.Proofs.Unread

namespace Sys2Proof.Proofs.Bytes

open Sys2Proof Sys2Proof.Machine

/-! ## One byte of memory (rules R57, R58 and R62) -/

/-- Settles O31: the two outcomes of a read and the three of a write, and the one law of a write of memory. -/
theorem byteAccessRules : Obligations.ByteAccessRules := by
  intro s a b
  refine ⟨State.memRead_ok, State.memRead_error, fun ha hl => ?_, State.memWrite_range, State.memWrite_low⟩
  have hread (q : Nat) := Memory.read_write s.unlisted s.mem a q b
  exact ⟨_, State.memWrite_ok ha hl, rfl, (hread a).trans (if_pos rfl), fun q hq => (hread q).trans (if_neg hq)⟩

/-! ## A store at the next fetch (rule R66) -/

theorem stored_regBlock_byteAt (s : State) {x r : Reg} (hr : r.val ≤ x.val) :
    (Index.stored s (s.regBlock x)).byteAt (s.i.toNat + r.val) = s.reg r := by
  have hlen := State.regBlock_length s x
  rw [Index.stored_byteAt_add s (by omega), State.regBlock_getD s x r hr]

/-- Settles O32: Fx55 leaves PC at the address it stored at, so the fetch reads its first two bytes, V0 and V1. -/
theorem fetchSeesTheLastStore : Obligations.FetchSeesTheLastStore := by
  intro x s hx hi hbase hfit
  have hlen := State.regBlock_length s x
  have hexec := Index.exec_ldMemVx_ok (x := x) (Index.writeBytes_stored (by omega) (.inl hbase))
  have hpc : (Index.stored s (s.regBlock x)).pc = s.i := hi.symm
  have hhigh : (Index.stored s (s.regBlock x)).byteAt s.i.toNat = s.reg 0 :=
    stored_regBlock_byteAt s (r := 0) (Nat.zero_le _)
  have hlow : (Index.stored s (s.regBlock x)).byteAt (s.i.toNat + 1) = s.reg 1 := stored_regBlock_byteAt s (r := 1) hx
  refine ⟨_, hexec, _, State.fetch_ok ?_, ?_⟩
  · rw [State.setI_pc, hpc]
    omega
  · rw [wordOfBytes_toNat, State.setI_pc, State.setI_byteAt, State.setI_byteAt, hpc, hhigh, hlow]

end Sys2Proof.Proofs.Bytes

namespace Sys2Proof.Proofs.HostOps

open Sys2Proof Sys2Proof.Machine

/-! ## Reset (rules R45 to R47 and R161) -/

@[simp] theorem resetWith_reg (c : Config) (r : Reg) : (State.resetWith c).reg r = 0 := by
  simp [State.resetWith, State.reg]

@[simp] theorem resetWith_entry (c : Config) (j : Fin 16) : (State.resetWith c).entry j = 0 := by
  simp [State.resetWith, State.entry]

@[simp] theorem resetWith_pixel (c : Config) (r : Fin 32) (col : Fin 64) : (State.resetWith c).pixel r col = false := by
  simp [State.resetWith, State.pixel]

/-- Memory lists nothing after reset, so every address reads as its reset content. -/
theorem resetWith_byteAt (c : Config) (a : Nat) : (State.resetWith c).byteAt a = c.resetByte a := rfl

theorem resetWith_inv (c : Config) : (State.resetWith c).Inv where
  memory := ⟨List.Pairwise.nil, fun _ h => absurd h List.not_mem_nil⟩
  pc := Nat.le_of_ble_eq_true rfl
  stack := fun j => by simp
  code := Nat.zero_le _
  clear := fun _ => ⟨rfl, rfl⟩

/-- Settles O48: the reset values are within every bound, whatever the configuration. -/
theorem resetMeetsInvariant : Obligations.ResetMeetsInvariant := ⟨resetWith_inv _, resetWith_inv⟩

/-- The reset table of rule R45. -/
def HasResetValues (c : Config) (t : State) : Prop :=
  (∀ r, t.reg r = 0) ∧ t.i = 0 ∧ t.pc = 0x200 ∧ t.sp.val = 0 ∧ (∀ j, t.entry j = 0) ∧ t.dt = 60 ∧ t.st = 60 ∧
  (∀ r c, t.pixel r c = false) ∧ (∀ (a : Nat) (h : a < 80), t.byteAt a = c.font[a]) ∧ (∀ a, 80 ≤ a → t.byteAt a = 0) ∧
  t.faultCode = 0 ∧ t.faultPc = 0 ∧ t.faultInfo = 0 ∧ t.halted = false

theorem resetWith_hasResetValues (c : Config) : HasResetValues c (State.resetWith c) := by
  refine ⟨resetWith_reg c, rfl, rfl, rfl, resetWith_entry c, rfl, rfl, resetWith_pixel c, fun a ha => ?_, fun a ha => ?_,
    rfl, rfl, rfl, rfl⟩
  · rw [resetWith_byteAt, Config.resetByte, dif_pos ha]
  · rw [resetWith_byteAt, Config.resetByte, dif_neg (Nat.not_lt.mpr ha)]

/-- Settles O51: `RESET` is the state after reset but for the model's own input fields, of which the table does not speak. -/
theorem resetGivesTheResetValues : Obligations.ResetGivesTheResetValues := by
  rintro s t (rfl | rfl)
  · exact resetWith_hasResetValues s.cfg
  · exact resetWith_hasResetValues s.cfg

/-! ## Load (rules R165 and R166) -/

theorem perform_load_rejected {s : State} {b : List Byte} (h : progMax < b.length) :
    s.perform (.load b) = (.loadRejected, s) := if_pos h

theorem perform_load_ok {s : State} {b : List Byte} (h : b.length ≤ progMax) :
    s.perform (.load b) = (.loadOk, s.setMem (Memory.writeAll s.unlisted s.mem progBase b)) := if_neg (Nat.not_lt.mpr h)

/-- Settles O52: the load is a block write of memory at 0x200. -/
theorem loadIsAllOrNothing : Obligations.LoadIsAllOrNothing := by
  refine fun s b => ⟨perform_load_rejected, fun h => ⟨_, perform_load_ok h, rfl, fun k hk => ?_, fun a ha => ?_⟩⟩
  · rw [State.setMem_byteAt, Memory.read_writeAll, progBase, if_pos (by omega), Nat.add_sub_cancel_left]
    exact (List.getElem_eq_getD 0).symm
  · rw [State.setMem_byteAt, Memory.read_writeAll, progBase, if_neg (by omega)]
    rfl

/-! ## The invariant -/

/-- The state after a host's cycle is the one the step with that input answers. -/
theorem step_perform_cycle (s : State) (k : BitVec 16) (rnd : Byte) :
    step { s with inputs := ⟨k, rnd⟩ :: s.inputs } = .next (s.perform (.cycle k rnd)).2 := by
  obtain ⟨t, e, h⟩ := Steps.cycle_next_exists { s with inputs := ⟨k, rnd⟩ :: s.inputs }
  simp [State.perform, step, h, stateAfter]

/-- RESET gives a state after reset, CYCLE is a step, a load that is not rejected lies in memory, and READ changes nothing. -/
theorem inv_perform {s : State} (h : s.Inv) (op : HostOp) : (s.perform op).2.Inv := by
  cases op with
  | reset => exact Control.inv_of_unread (resetWith_inv s.cfg)
  | cycle k rnd => exact Control.stepKeepsInvariant _ _ (Control.inv_of_unread h) (step_perform_cycle s k rnd)
  | load b =>
    rcases Nat.lt_or_ge progMax b.length with hlong | hfit
    · rw [perform_load_rejected hlong]
      exact h
    · rw [perform_load_ok hfit]
      refine Control.inv_setMem h (Memory.wf_writeAll _ b h.memory ?_)
      simp only [progBase, progMax, memSize] at *
      omega
  | read => exact h

theorem inv_performAll (ops : List HostOp) : ∀ {s : State}, s.Inv → (s.performAll ops).Inv := by
  induction ops with
  | nil => exact fun h => h
  | cons op ops ih => exact fun h => ih (inv_perform h op)

/-- Settles O50: each operation keeps the invariant, and so, by induction on the list, does a run. -/
theorem operationsKeepInvariant : Obligations.OperationsKeepInvariant :=
  ⟨fun _ op h => inv_perform h op, fun _ ops h => inv_performAll ops h⟩

/-! ## A halted core under the host's operations (decisions D3 and D22) -/

/-- A host's cycle of a halted core gives the state back, with one more input used. -/
theorem perform_cycle_halted {s : State} (h : s.halted = true) (k : BitVec 16) (rnd : Byte) :
    s.perform (.cycle k rnd) = (.cycled none, { s with draws := s.draws + 1 }) := by
  have hcycle := Steps.cycle_halted (s := { s with inputs := ⟨k, rnd⟩ :: s.inputs }) h
  rw [State.perform, hcycle]
  rfl

/-- Settles O53, by the operation. -/
theorem onlyResetLeavesTheHalt : Obligations.OnlyResetLeavesTheHalt := by
  refine fun s op h => ⟨fun hne => ?_, rfl⟩
  cases op with
  | reset => exact absurd rfl hne
  | cycle k rnd =>
    rw [perform_cycle_halted h]
    exact ⟨rfl, rfl, rfl⟩
  | load b =>
    rcases Nat.lt_or_ge progMax b.length with hlong | hfit
    · rw [perform_load_rejected hlong]
      exact ⟨rfl, rfl, rfl⟩
    · rw [perform_load_ok hfit]
      exact ⟨rfl, rfl, rfl⟩
  | read => exact ⟨rfl, rfl, rfl⟩

/-! ## Outputs and inputs (section 12 of spec/10_state.md) -/

/-- Settles O54: `READ` copies the outputs, and sound is active exactly while ST is not 0. -/
theorem readShowsTheOutputs : Obligations.ReadShowsTheOutputs := by
  refine fun s => ⟨s.readOut, rfl, fun r c => rfl, ?_, rfl, rfl, rfl⟩
  refine (KeysTimers.soundActive_iff s).trans ?_
  rw [Nat.pos_iff_ne_zero, Ne, Ne, ← BitVec.toNat_inj]
  rfl

/-- A key alone is the lowest key down. -/
theorem lowestDown_twoPow (k : Fin 16) : lowestDown (BitVec.twoPow 16 k.val) = some k := by
  refine KeysTimers.lowestDown_eq_some ?_ fun j hj => ?_
  · simp
  · have hne : j.val ≠ k.val := ne_of_lt hj
    simp [hne]

/-- Settles O55: the instruction runs with K and RND next among the inputs, and the cycle takes them off again. -/
theorem cycleDeliversItsInputs : Obligations.CycleDeliversItsInputs := by
  rintro s _ x kk k keys rnd hrun rfl
  refine ⟨fun hw => ?_, fun hw hkeys => ?_⟩
  · rw [Control.perform_cycle_runs hrun hw (Encoding.decodeWord_familyC x kk) (Alu.exec_rnd x kk _)]
    exact ⟨State.setReg_reg_self _ x _, rfl⟩
  · subst hkeys
    have hexec := KeysTimers.exec_ldVxK_take
      (s := { s with inputs := ⟨BitVec.twoPow 16 k.val, rnd⟩ :: s.inputs }) (lowestDown_twoPow k) x
    rw [Control.perform_cycle_runs hrun hw (Encoding.decodeWord_familyF x 0x0A) hexec]
    refine ⟨?_, rfl⟩
    rw [State.takeInput_reg, State.setReg_reg_self]
    exact Nat.mod_eq_of_lt (by omega)

end Sys2Proof.Proofs.HostOps
